-- ==== Sys2Proof/Word.lean ====
section
/-! DEFINITION. The widths of the machine: bytes, 16-bit words, and the operand fields of an instruction word
(00_scope.md R6, R8, R9). Every value is unsigned. -/

namespace Sys2Proof

/-- A memory byte, and the value of a general register or of a timer (R20, R29, R32). -/
abbrev Byte := BitVec 8

/-- The width of the program counter, the index register, a stack entry and an instruction word (R24, R25, R27, R70). -/
abbrev Word := BitVec 16

/-- The 12-bit address operand `nnn` (R71, R73). -/
abbrev Addr12 := BitVec 12

/-- A 4-bit field: the category, a sub-operation, or the count `n` (R71, R73). -/
abbrev Nibble := BitVec 4

/-- The index of a general register, V0 to VF (R20). -/
abbrev Reg := Fin 16

/-- V0, the offset register of the indexed jump (R111). -/
def V0 : Reg := 0

/-- VF, the flag register (R22). -/
def VF : Reg := 15

end Sys2Proof
end

