-- ==== Sys2Proof/Config.lean ====
section
/-! DEFINITION. What an implementation fixes and what the environment is free to choose: the sizes, the switches and the
font of 00_scope.md R6 and R7, the launch parameters of 10_state.md R39 to R41, and the step inputs of R44. -/

namespace Sys2Proof

/-- The size of memory in bytes (R6, R32). -/
def Config.memSize : Nat := 4096

/-- The program load offset and the start value of the program counter (R6, R37). -/
def Config.loadOffset : Nat := 0x200

/-- The 64 x 32 grid of pixels, held as 32 rows of 64: the pixel (x, y) is entry x of row y (R31). -/
abbrev Framebuffer := Vector (Vector Bool 64) 32

/-- What the environment supplies for one step (R44): the key-input source's answer, the random byte, and the number
of whole 1/60-second periods each timer's own reference reports. -/
structure StepInput where
  key : Option (Fin 16)
  rnd : Byte
  dDT : Nat
  dST : Nat
  deriving DecidableEq, Repr, Inhabited

/-- The inputs of a step in which nothing happens: no key, a zero byte, no period elapsed. -/
def StepInput.quiet : StepInput := ⟨none, 0, 0, 0⟩

/-- FREE VALUE (log entry 3). The inputs the environment supplies once its scheduled ones are used up, one for each
value of the counter `State.draws`. It has no body: nothing is known of any of them, as R44 asks
("The step relation holds for every choice of inputs"). -/
opaque Config.freeInput : Nat → StepInput

/-- The two switches of R7 (10_state.md R36, 92_eei_decisions.md D30), fixed for a run. -/
structure Config.Switches where
  /-- `SHIFT_READS_VY`: do SHR and SHL read Vy (D6) -/
  shiftReadsVy : Bool
  /-- `SHL_FLAG_XOR`: does SHL exclusive-or its flag into VF (D7) -/
  shlFlagXor   : Bool
  deriving DecidableEq, Repr

/-- The spec's defaults, both false (D6, D7, D30); log entries 9 and 10. -/
def Config.defaultSwitches : Config.Switches := ⟨false, false⟩

/-- `FONT`: the default font of 44_index_memory.md R188, glyph by glyph, the top row first. PRESUMED: the spec itself
takes the bytes from general knowledge (D21, GK3); log entry 8. -/
def Config.defaultFont : Vector Byte 80 := #v[
  0xF0, 0x90, 0x90, 0x90, 0xF0,
  0x20, 0x60, 0x20, 0x20, 0x70,
  0xF0, 0x10, 0xF0, 0x80, 0xF0,
  0xF0, 0x10, 0xF0, 0x10, 0xF0,
  0x90, 0x90, 0xF0, 0x10, 0x10,
  0xF0, 0x80, 0xF0, 0x10, 0xF0,
  0xF0, 0x80, 0xF0, 0x90, 0xF0,
  0xF0, 0x10, 0x20, 0x40, 0x40,
  0xF0, 0x90, 0xF0, 0x90, 0xF0,
  0xF0, 0x90, 0xF0, 0x10, 0xF0,
  0xF0, 0x90, 0xF0, 0x90, 0x90,
  0xE0, 0x90, 0xE0, 0x90, 0xE0,
  0xF0, 0x80, 0x80, 0x80, 0xF0,
  0xE0, 0x90, 0x90, 0x90, 0xE0,
  0xF0, 0x80, 0xF0, 0x80, 0xF0,
  0xF0, 0x80, 0xF0, 0x80, 0x80]

/-- A grid with every pixel off. -/
def Config.blankScreen : Framebuffer := Vector.replicate 32 (Vector.replicate 64 false)

/-- What a run takes as arguments (R7, R36, R39 to R41): the font, the switches, and the reset contents the source does
not state. `initMem` is `INIT_MEM`, the bytes outside the font, as (address, byte) pairs over a default of 0. -/
structure Config.Launch where
  font     : Vector Byte 80
  switches : Config.Switches
  initV    : Vector Byte 16
  initI    : Word
  initDT   : Byte
  initST   : Byte
  initFB   : Framebuffer
  initMem  : List (Nat × Byte)
  deriving DecidableEq, Repr

/-- The launch the spec names `clean_entry` (70_reset_and_hazards.md R232), with the default font and switches.
DESIGN CHOICE (log entries 4, 5, 6, 9, 10): `State.reset` is the machine launched so. -/
def Config.cleanEntry : Config.Launch where
  font     := Config.defaultFont
  switches := Config.defaultSwitches
  initV    := Vector.replicate 16 0
  initI    := 0
  initDT   := 0
  initST   := 0
  initFB   := Config.blankScreen
  initMem  := []

end Sys2Proof
end

