-- ==== Sys2Proof/Syntax.lean ====
section
/-! DEFINITION. The instructions: one constructor for each of the 34 rows of 30_encoding.md R75 (spec/opcode_table.json),
in the table's order. The instruction set is closed (00_scope.md R2, 30_encoding.md R78). Operand types carry their
ranges (R73): a register index, a 12-bit address, an 8-bit immediate, a 4-bit count. -/

namespace Sys2Proof

inductive Instr where
  /-- `CLS` (R145) -/
  | cls
  /-- `RET` (R104) -/
  | ret
  /-- `JP nnn` (R105) -/
  | jp (nnn : Addr12)
  /-- `CALL nnn` (R106) -/
  | call (nnn : Addr12)
  /-- `SE Vx, kk` (R107) -/
  | seImm (x : Reg) (kk : Byte)
  /-- `SNE Vx, kk` (R108) -/
  | sneImm (x : Reg) (kk : Byte)
  /-- `SE Vx, Vy` (R109) -/
  | seReg (x y : Reg)
  /-- `LD Vx, kk` (R120) -/
  | ldImm (x : Reg) (kk : Byte)
  /-- `ADD Vx, kk` (R121) -/
  | addImm (x : Reg) (kk : Byte)
  /-- `LD Vx, Vy` (R122) -/
  | ldReg (x y : Reg)
  /-- `OR Vx, Vy` (R123) -/
  | or (x y : Reg)
  /-- `AND Vx, Vy` (R124) -/
  | and (x y : Reg)
  /-- `XOR Vx, Vy` (R125) -/
  | xor (x y : Reg)
  /-- `ADD Vx, Vy` (R126) -/
  | addReg (x y : Reg)
  /-- `SUB Vx, Vy` (R127) -/
  | sub (x y : Reg)
  /-- `SHR Vx, Vy` (R128); `y` is decoded whether or not it is read (R79) -/
  | shr (x y : Reg)
  /-- `SUBN Vx, Vy` (R129) -/
  | subn (x y : Reg)
  /-- `SHL Vx, Vy` (R130); `y` is decoded whether or not it is read (R79) -/
  | shl (x y : Reg)
  /-- `SNE Vx, Vy` (R110) -/
  | sneReg (x y : Reg)
  /-- `LD I, nnn` (R180) -/
  | ldI (nnn : Addr12)
  /-- `JP V0, nnn` (R111) -/
  | jpV0 (nnn : Addr12)
  /-- `RND Vx, kk` (R131) -/
  | rnd (x : Reg) (kk : Byte)
  /-- `DRW Vx, Vy, n` (R146) -/
  | drw (x y : Reg) (n : Nibble)
  /-- `SKP Vx` (R160) -/
  | skp (x : Reg)
  /-- `SKNP Vx` (R161) -/
  | sknp (x : Reg)
  /-- `LD Vx, DT` (R162) -/
  | ldVxDT (x : Reg)
  /-- `LD Vx, K` (R164) -/
  | ldVxK (x : Reg)
  /-- `LD DT, Vx` (R165) -/
  | ldDTVx (x : Reg)
  /-- `LD ST, Vx` (R166) -/
  | ldSTVx (x : Reg)
  /-- `ADD I, Vx` (R181) -/
  | addI (x : Reg)
  /-- `LD F, Vx` (R184) -/
  | ldF (x : Reg)
  /-- `LD B, Vx` (R185) -/
  | ldB (x : Reg)
  /-- `LD [I], Vx` (R186) -/
  | storeRegs (x : Reg)
  /-- `LD Vx, [I]` (R187) -/
  | loadRegs (x : Reg)
  deriving DecidableEq, Repr

end Sys2Proof
end

