-- ==== Sys2Proof/WellFormed.lean ====
section
/-! DEFINITION. What a well-formed instruction, launch and image are. The operands of an `Instr` carry their ranges in
their types (30_encoding.md R73), so a term of `Instr` is always well-formed; the checks stand where plain numbers come
in: a source line in the spelling of R85, the launch parameters, and the program image. -/

namespace Sys2Proof

/-- The mnemonic words of the spelling of R75 and R85. -/
inductive Mnemonic where
  | cls | ret | jp | call | se | sne | ld | add | or | and | xor | sub | shr | subn | shl | rnd | drw | skp | sknp
  deriving DecidableEq, Repr

/-- An operand as R85 spells it: a register `V` and its digit, a number, or one of the special operands. -/
inductive AsmOperand where
  | v (digit : Nat)
  | num (value : Nat)
  /-- `I` -/
  | index
  /-- `DT` -/
  | delay
  /-- `ST` -/
  | sound
  /-- `K` -/
  | key
  /-- `F` -/
  | font
  /-- `B` -/
  | bcd
  /-- `[I]` -/
  | atIndex
  deriving DecidableEq, Repr

/-- A source line: a mnemonic and its operands (R85), before anything is checked. -/
structure AsmLine where
  mnemonic : Mnemonic
  operands : List AsmOperand
  deriving DecidableEq, Repr

/-- Why a source line stands for no instruction. -/
inductive IllFormed where
  /-- a register digit above F (R73: x and y lie in 0 to 15) -/
  | noSuchRegister (digit : Nat)
  /-- an address that does not fit 12 bits (R73) -/
  | addressTooWide (value : Nat)
  /-- an immediate that does not fit 8 bits (R73) -/
  | immediateTooWide (value : Nat)
  /-- a count that does not fit 4 bits (R73) -/
  | countTooWide (value : Nat)
  /-- no row of R75 has this mnemonic with operands of these kinds -/
  | noSuchForm
  deriving DecidableEq, Repr

/-- A register digit in range. -/
def AsmOperand.checkReg (d : Nat) : Except IllFormed Reg :=
  if h : d < 16 then .ok ⟨d, h⟩ else .error (.noSuchRegister d)

/-- A 12-bit address in range. -/
def AsmOperand.checkAddr (n : Nat) : Except IllFormed Addr12 :=
  if n < 4096 then .ok (BitVec.ofNat 12 n) else .error (.addressTooWide n)

/-- An 8-bit immediate in range. -/
def AsmOperand.checkImm (n : Nat) : Except IllFormed Byte :=
  if n < 256 then .ok (BitVec.ofNat 8 n) else .error (.immediateTooWide n)

/-- A 4-bit count in range. -/
def AsmOperand.checkCount (n : Nat) : Except IllFormed Nibble :=
  if n < 16 then .ok (BitVec.ofNat 4 n) else .error (.countTooWide n)

/-- A row with two registers. -/
def AsmLine.checkXY (f : Reg → Reg → Instr) (x y : Nat) : Except IllFormed Instr := do
  .ok (f (← AsmOperand.checkReg x) (← AsmOperand.checkReg y))

/-- A row with a register and an 8-bit immediate. -/
def AsmLine.checkXK (f : Reg → Byte → Instr) (x kk : Nat) : Except IllFormed Instr := do
  .ok (f (← AsmOperand.checkReg x) (← AsmOperand.checkImm kk))

/-- A row with one register. -/
def AsmLine.checkX (f : Reg → Instr) (x : Nat) : Except IllFormed Instr := do
  .ok (f (← AsmOperand.checkReg x))

/-- A row with a 12-bit address. -/
def AsmLine.checkA (f : Addr12 → Instr) (n : Nat) : Except IllFormed Instr := do
  .ok (f (← AsmOperand.checkAddr n))

/-- The instruction a source line stands for, by the `mnemonic` column of R75. `SHR` and `SHL` may omit `Vy`, and then
y = 0 (R85, R86). -/
def AsmLine.check (l : AsmLine) : Except IllFormed Instr :=
  match l.mnemonic, l.operands with
  | .cls, [] => .ok .cls
  | .ret, [] => .ok .ret
  | .jp, [.num n] => checkA .jp n
  | .call, [.num n] => checkA .call n
  | .se, [.v x, .num kk] => checkXK .seImm x kk
  | .sne, [.v x, .num kk] => checkXK .sneImm x kk
  | .se, [.v x, .v y] => checkXY .seReg x y
  | .ld, [.v x, .num kk] => checkXK .ldImm x kk
  | .add, [.v x, .num kk] => checkXK .addImm x kk
  | .ld, [.v x, .v y] => checkXY .ldReg x y
  | .or, [.v x, .v y] => checkXY .or x y
  | .and, [.v x, .v y] => checkXY .and x y
  | .xor, [.v x, .v y] => checkXY .xor x y
  | .add, [.v x, .v y] => checkXY .addReg x y
  | .sub, [.v x, .v y] => checkXY .sub x y
  | .shr, [.v x, .v y] => checkXY .shr x y
  | .shr, [.v x] => checkXY .shr x 0
  | .subn, [.v x, .v y] => checkXY .subn x y
  | .shl, [.v x, .v y] => checkXY .shl x y
  | .shl, [.v x] => checkXY .shl x 0
  | .sne, [.v x, .v y] => checkXY .sneReg x y
  | .ld, [.index, .num n] => checkA .ldI n
  | .jp, [.v d, .num n] => if d = 0 then checkA .jpV0 n else .error .noSuchForm
  | .rnd, [.v x, .num kk] => checkXK .rnd x kk
  | .drw, [.v x, .v y, .num n] => do
      .ok (.drw (← AsmOperand.checkReg x) (← AsmOperand.checkReg y) (← AsmOperand.checkCount n))
  | .skp, [.v x] => checkX .skp x
  | .sknp, [.v x] => checkX .sknp x
  | .ld, [.v x, .delay] => checkX .ldVxDT x
  | .ld, [.v x, .key] => checkX .ldVxK x
  | .ld, [.delay, .v x] => checkX .ldDTVx x
  | .ld, [.sound, .v x] => checkX .ldSTVx x
  | .add, [.index, .v x] => checkX .addI x
  | .ld, [.font, .v x] => checkX .ldF x
  | .ld, [.bcd, .v x] => checkX .ldB x
  | .ld, [.atIndex, .v x] => checkX .storeRegs x
  | .ld, [.v x, .atIndex] => checkX .loadRegs x
  | _, _ => .error .noSuchForm

/-- Does a source line stand for an instruction. -/
def AsmLine.wellFormed (l : AsmLine) : Bool :=
  match l.check with
  | .ok _ => true
  | .error _ => false

/-- The source line of an instruction, in the spelling of R75. -/
def Instr.toAsm : Instr → AsmLine
  | .cls => ⟨.cls, []⟩
  | .ret => ⟨.ret, []⟩
  | .jp nnn => ⟨.jp, [.num nnn.toNat]⟩
  | .call nnn => ⟨.call, [.num nnn.toNat]⟩
  | .seImm x kk => ⟨.se, [.v x, .num kk.toNat]⟩
  | .sneImm x kk => ⟨.sne, [.v x, .num kk.toNat]⟩
  | .seReg x y => ⟨.se, [.v x, .v y]⟩
  | .ldImm x kk => ⟨.ld, [.v x, .num kk.toNat]⟩
  | .addImm x kk => ⟨.add, [.v x, .num kk.toNat]⟩
  | .ldReg x y => ⟨.ld, [.v x, .v y]⟩
  | .or x y => ⟨.or, [.v x, .v y]⟩
  | .and x y => ⟨.and, [.v x, .v y]⟩
  | .xor x y => ⟨.xor, [.v x, .v y]⟩
  | .addReg x y => ⟨.add, [.v x, .v y]⟩
  | .sub x y => ⟨.sub, [.v x, .v y]⟩
  | .shr x y => ⟨.shr, [.v x, .v y]⟩
  | .subn x y => ⟨.subn, [.v x, .v y]⟩
  | .shl x y => ⟨.shl, [.v x, .v y]⟩
  | .sneReg x y => ⟨.sne, [.v x, .v y]⟩
  | .ldI nnn => ⟨.ld, [.index, .num nnn.toNat]⟩
  | .jpV0 nnn => ⟨.jp, [.v 0, .num nnn.toNat]⟩
  | .rnd x kk => ⟨.rnd, [.v x, .num kk.toNat]⟩
  | .drw x y n => ⟨.drw, [.v x, .v y, .num n.toNat]⟩
  | .skp x => ⟨.skp, [.v x]⟩
  | .sknp x => ⟨.sknp, [.v x]⟩
  | .ldVxDT x => ⟨.ld, [.v x, .delay]⟩
  | .ldVxK x => ⟨.ld, [.v x, .key]⟩
  | .ldDTVx x => ⟨.ld, [.delay, .v x]⟩
  | .ldSTVx x => ⟨.ld, [.sound, .v x]⟩
  | .addI x => ⟨.add, [.index, .v x]⟩
  | .ldF x => ⟨.ld, [.font, .v x]⟩
  | .ldB x => ⟨.ld, [.bcd, .v x]⟩
  | .storeRegs x => ⟨.ld, [.atIndex, .v x]⟩
  | .loadRegs x => ⟨.ld, [.v x, .atIndex]⟩

/-- `INIT_MEM` names only the bytes outside the font (R41): addresses 80 to 4095. -/
def Config.Launch.wellFormed (p : Config.Launch) : Bool :=
  p.initMem.all fun c => 80 ≤ c.1 && c.1 < Config.memSize

/-- An image fits the memory from the load offset on: at most 3584 bytes (20_memory.md R62). -/
def imageFits (image : List Byte) : Bool :=
  image.length ≤ Config.memSize - Config.loadOffset

end Sys2Proof
end

