-- ==== Sys2Proof/Decode.lean ====
section
/-! DEFINITION. Instruction words and their fields, the decoder and the encoder (30_encoding.md). The opcode values are
the standard CHIP-8 table that the spec itself takes from general knowledge (PRESUMED: R75, 92_eei_decisions.md D20;
log entry 11); matching is strict (R77, D19; log entry 23). -/

namespace Sys2Proof

/-- Two consecutive memory bytes as a word, high byte first (R53, R54, R70). -/
def wordOfBytes (high low : Byte) : Word := high.setWidth 16 <<< 8 ||| low.setWidth 16

/-- The byte of a word at the lower address (R70). -/
def highByte (w : Word) : Byte := w.extractLsb' 8 8

/-- The byte of a word at the higher address (R70). -/
def lowByte (w : Word) : Byte := w.extractLsb' 0 8

/-- `category`: w[15:12] (R71). -/
def fieldC (w : Word) : Nibble := w.extractLsb' 12 4

/-- `addr12`: w[11:0] (R71). -/
def fieldNnn (w : Word) : Addr12 := w.extractLsb' 0 12

/-- `regX`: w[11:8] (R71). -/
def fieldX (w : Word) : Reg := (w.extractLsb' 8 4 : Nibble).toFin

/-- `regY`: w[7:4] (R71). -/
def fieldY (w : Word) : Reg := (w.extractLsb' 4 4 : Nibble).toFin

/-- `imm8`: w[7:0] (R71). -/
def fieldKk (w : Word) : Byte := w.extractLsb' 0 8

/-- `nibble`: w[3:0] (R71). -/
def fieldN (w : Word) : Nibble := w.extractLsb' 0 4

/-- What the decoder answers for bits that are no instruction. -/
inductive DecodeError where
  /-- `Unrecognized(w)`: the word matches no row of R75 (R74, R77). -/
  | unrecognized (w : Word)
  /-- fewer than the two bytes of an instruction word were given (R70) -/
  | truncated
  deriving DecidableEq, Repr

/-- Category 8, sub-dispatched on `nibble` (R75, R77). -/
def decodeAlu (w : Word) : Except DecodeError Instr :=
  match (fieldN w).toNat with
  | 0x0 => .ok (.ldReg (fieldX w) (fieldY w))
  | 0x1 => .ok (.or (fieldX w) (fieldY w))
  | 0x2 => .ok (.and (fieldX w) (fieldY w))
  | 0x3 => .ok (.xor (fieldX w) (fieldY w))
  | 0x4 => .ok (.addReg (fieldX w) (fieldY w))
  | 0x5 => .ok (.sub (fieldX w) (fieldY w))
  | 0x6 => .ok (.shr (fieldX w) (fieldY w))
  | 0x7 => .ok (.subn (fieldX w) (fieldY w))
  | 0xE => .ok (.shl (fieldX w) (fieldY w))
  | _ => .error (.unrecognized w)

/-- Category E, sub-dispatched on `imm8` (R75, R77). -/
def decodeKey (w : Word) : Except DecodeError Instr :=
  match (fieldKk w).toNat with
  | 0x9E => .ok (.skp (fieldX w))
  | 0xA1 => .ok (.sknp (fieldX w))
  | _ => .error (.unrecognized w)

/-- Category F, sub-dispatched on `imm8` (R75, R77). -/
def decodeMisc (w : Word) : Except DecodeError Instr :=
  match (fieldKk w).toNat with
  | 0x07 => .ok (.ldVxDT (fieldX w))
  | 0x0A => .ok (.ldVxK (fieldX w))
  | 0x15 => .ok (.ldDTVx (fieldX w))
  | 0x18 => .ok (.ldSTVx (fieldX w))
  | 0x1E => .ok (.addI (fieldX w))
  | 0x29 => .ok (.ldF (fieldX w))
  | 0x33 => .ok (.ldB (fieldX w))
  | 0x55 => .ok (.storeRegs (fieldX w))
  | 0x65 => .ok (.loadRegs (fieldX w))
  | _ => .error (.unrecognized w)

/-- The decode function of R74: total on the 65536 words. -/
def decode (w : Word) : Except DecodeError Instr :=
  match (fieldC w).toNat with
  | 0x0 =>
    match w.toNat with
    | 0x00E0 => .ok .cls
    | 0x00EE => .ok .ret
    | _ => .error (.unrecognized w)
  | 0x1 => .ok (.jp (fieldNnn w))
  | 0x2 => .ok (.call (fieldNnn w))
  | 0x3 => .ok (.seImm (fieldX w) (fieldKk w))
  | 0x4 => .ok (.sneImm (fieldX w) (fieldKk w))
  | 0x5 => if fieldN w = 0 then .ok (.seReg (fieldX w) (fieldY w)) else .error (.unrecognized w)
  | 0x6 => .ok (.ldImm (fieldX w) (fieldKk w))
  | 0x7 => .ok (.addImm (fieldX w) (fieldKk w))
  | 0x8 => decodeAlu w
  | 0x9 => if fieldN w = 0 then .ok (.sneReg (fieldX w) (fieldY w)) else .error (.unrecognized w)
  | 0xA => .ok (.ldI (fieldNnn w))
  | 0xB => .ok (.jpV0 (fieldNnn w))
  | 0xC => .ok (.rnd (fieldX w) (fieldKk w))
  | 0xD => .ok (.drw (fieldX w) (fieldY w) (fieldN w))
  | 0xE => decodeKey w
  | 0xF => decodeMisc w
  | _ => .error (.unrecognized w)

/-- The decoder over memory bytes: the first two bytes make the word, and the rest is handed back (R70). -/
def decodeBytes : List Byte → Except DecodeError (Instr × List Byte)
  | high :: low :: rest =>
    match decode (wordOfBytes high low) with
    | .ok i => .ok (i, rest)
    | .error e => .error e
  | _ => .error .truncated

/-- Format A: `cccc aaaa aaaa aaaa` (R72). -/
def wordA (c : Nibble) (nnn : Addr12) : Word := c.setWidth 16 <<< 12 ||| nnn.setWidth 16

/-- Format XK: `cccc xxxx kkkk kkkk`, and format XS with the sub-op byte in the place of kk (R72). -/
def wordXK (c : Nibble) (x : Reg) (kk : Byte) : Word :=
  c.setWidth 16 <<< 12 ||| (BitVec.ofFin x : Nibble).setWidth 16 <<< 8 ||| kk.setWidth 16

/-- Format XYN: `cccc xxxx yyyy nnnn`, and format XYS with the sub-op nibble in the place of n (R72). -/
def wordXYN (c : Nibble) (x y : Reg) (n : Nibble) : Word :=
  c.setWidth 16 <<< 12 ||| (BitVec.ofFin x : Nibble).setWidth 16 <<< 8 |||
    (BitVec.ofFin y : Nibble).setWidth 16 <<< 4 ||| n.setWidth 16

/-- The word of an instruction, from the patterns of R75. -/
def encode : Instr → Word
  | .cls => 0x00E0
  | .ret => 0x00EE
  | .jp nnn => wordA 0x1 nnn
  | .call nnn => wordA 0x2 nnn
  | .seImm x kk => wordXK 0x3 x kk
  | .sneImm x kk => wordXK 0x4 x kk
  | .seReg x y => wordXYN 0x5 x y 0x0
  | .ldImm x kk => wordXK 0x6 x kk
  | .addImm x kk => wordXK 0x7 x kk
  | .ldReg x y => wordXYN 0x8 x y 0x0
  | .or x y => wordXYN 0x8 x y 0x1
  | .and x y => wordXYN 0x8 x y 0x2
  | .xor x y => wordXYN 0x8 x y 0x3
  | .addReg x y => wordXYN 0x8 x y 0x4
  | .sub x y => wordXYN 0x8 x y 0x5
  | .shr x y => wordXYN 0x8 x y 0x6
  | .subn x y => wordXYN 0x8 x y 0x7
  | .shl x y => wordXYN 0x8 x y 0xE
  | .sneReg x y => wordXYN 0x9 x y 0x0
  | .ldI nnn => wordA 0xA nnn
  | .jpV0 nnn => wordA 0xB nnn
  | .rnd x kk => wordXK 0xC x kk
  | .drw x y n => wordXYN 0xD x y n
  | .skp x => wordXK 0xE x 0x9E
  | .sknp x => wordXK 0xE x 0xA1
  | .ldVxDT x => wordXK 0xF x 0x07
  | .ldVxK x => wordXK 0xF x 0x0A
  | .ldDTVx x => wordXK 0xF x 0x15
  | .ldSTVx x => wordXK 0xF x 0x18
  | .addI x => wordXK 0xF x 0x1E
  | .ldF x => wordXK 0xF x 0x29
  | .ldB x => wordXK 0xF x 0x33
  | .storeRegs x => wordXK 0xF x 0x55
  | .loadRegs x => wordXK 0xF x 0x65

/-- The two bytes of an instruction in memory order (R70). -/
def encodeBytes (i : Instr) : List Byte := [highByte (encode i), lowByte (encode i)]

/-- The word of `nbits` bits that spec/opcode_table.json numbers as `w`: bits above `nbits` are 0. -/
def tableWord (nbits w : Nat) : Word := BitVec.ofNat 16 (w % 2 ^ nbits)

/-- The instruction the decoder reads from the table's word, laid out in memory order. -/
def decodeTableWord (nbits w : Nat) : Option Instr :=
  match decodeBytes [highByte (tableWord nbits w), lowByte (tableWord nbits w)] with
  | .ok (i, _) => some i
  | .error _ => none

end Sys2Proof
end

