-- ==== Sys2Proof/Machine/State.lean ====
section
/-! DEFINITION. The state of the machine (10_state.md), the fault records (60_exceptions.md), and the state after reset.
Every component of the spec's state tuple is a field; one more carries the configuration switches of R36 (log entries 9
and 10), and three more the step inputs of R44 (log entry 3). -/

namespace Sys2Proof.Machine

/-- Memory as the addresses that differ from what an unlisted address reads as, in rising order (`Memory.wf`). -/
abbrev Memory := List Host.Cell

/-- The fault kinds of R201, each with the info it records. -/
inductive FaultKind where
  /-- `OutOfRange(mem, a)`: raised by fetch, DRW, LD B, LD [I], LD Vx [I] and loadImage at an address outside
  [0, 4096) (R202). Safe: the spec's own terminal fault. -/
  | outOfRangeMem (a : Nat)
  /-- `OutOfRange(fb, x, y)`: raised only by the host's accessors (R140, R215). Safe: the spec's own. -/
  | outOfRangeFb (x y : Int)
  /-- `UnrecognizedInstruction(w)`: raised by executing a word that matches no row (R203). Safe: the spec's own. -/
  | unrecognizedInstruction (w : Word)
  /-- `StackOverflow`: raised by CALL with SP = 15 (R205). Safe: the spec's decision D5 errs so (log entry 17). -/
  | stackOverflow
  /-- `StackUnderflow`: raised by RET with SP = -1 (R205). Safe: the spec's decision D5 errs so (log entry 17). -/
  | stackUnderflow
  deriving DecidableEq, Repr

/-- A fault record: the kind with its info, and pc = A, the address of the instruction being executed (R200, R201). -/
structure FaultRecord where
  kind : FaultKind
  pc   : Word
  deriving DecidableEq, Repr

/-- `run` (R33). -/
inductive Run where
  | running
  | faulted (record : FaultRecord)
  deriving DecidableEq, Repr

/-- The state tuple of 10_state.md, the run's switches, and the model's own input fields. -/
structure State where
  /-- V0 to VF (R20) -/
  v : Vector Byte 16
  /-- I (R24) -/
  i : Word
  /-- PC (R25) -/
  pc : Word
  /-- `adv_suppress` (R26) -/
  advSuppress : Bool
  /-- the call stack's 16 entries (R27) -/
  stack : Vector Word 16
  /-- SP: none is -1, the empty stack, and some k is k, the top slot (R27; log entry 13) -/
  sp : Option (Fin 16)
  /-- DT (R29) -/
  dt : Byte
  /-- ST (R29) -/
  st : Byte
  /-- FB (R31) -/
  fb : Framebuffer
  /-- Mem (R32) -/
  mem : Memory
  /-- run (R33) -/
  run : Run
  /-- MODEL'S OWN: the switches this run was launched with, which nothing writes (R36; log entries 9 and 10) -/
  switches : Config.Switches
  /-- MODEL'S OWN: the inputs of the current step (R44; log entry 3) -/
  inp : StepInput
  /-- MODEL'S OWN: the inputs the environment has scheduled for the next steps, oldest first (R44; log entry 3) -/
  inputs : List StepInput
  /-- MODEL'S OWN: how many inputs have been drawn from `Config.freeInput` (R44; log entry 3) -/
  draws : Nat
  deriving DecidableEq, Repr

/-- Why the machine stops. -/
inductive Fault where
  /-- An instruction, its fetch, its decoding, or the loader raised a fault of R201 (raised by `Machine.raiseAt` and
  `Machine.displayPoll`). `after` is the spec's faulted state, with every effect that precedes the raise (R200, R204; log entry 1).
  Safe: the spec's own terminal fault. -/
  | raised (record : FaultRecord) (after : State)
  /-- A step from a state whose `run` is Faulted: no such step exists (R33, 93_implementation_defined.md U14).
  Raised by `step`. Safe: stuck (log entry 2). -/
  | noStep (record : FaultRecord)
  deriving DecidableEq, Repr

/-- Why the model gives an instruction no meaning. -/
inductive Refusal where
  /-- An instruction without a meaning in the model; answered only by an arm of `exec`. No arm answers it. Safe. -/
  | notModelled (mnemonic : String)
  deriving DecidableEq, Repr

/-- What a step, or a part of one, answers. -/
abbrev Result := Host.Outcome State Fault Refusal

/-- The machine right after reset, before an image is loaded: R37 (PC, SP, run, and the font, which is what unlisted
addresses 0 to 79 read as) and R38 (adv_suppress); the components the source states no value for (R39 to R41) are 0
or off, as in the spec's `clean_entry` (DESIGN CHOICE, unsafe: log entries 4, 5, 6, 7), the switches have the spec's
defaults (D30; log entries 9, 10), and the input fields are log entry 3's. -/
def State.reset : State where
  v := Vector.replicate 16 0
  i := 0
  pc := 0x200
  advSuppress := true
  stack := Vector.replicate 16 0
  sp := none
  dt := 0
  st := 0
  fb := Config.blankScreen
  mem := []
  run := .running
  switches := Config.defaultSwitches
  inp := .quiet
  inputs := []
  draws := 0

end Sys2Proof.Machine
end

