-- ==== Sys2Proof/Machine/Ops.lean ====
section
/-! DEFINITION. The named operations over the state: memory (20_memory.md), registers, the call stack and control
transfer (10_state.md, 40_control.md), the framebuffer accessors (42_display.md R140), the step's phases (R100), and
raising a fault (60_exceptions.md R200). Every read and write of a state component goes through these. -/

namespace Sys2Proof.Machine

/-! Memory -/

/-- The byte of `FONT` at an address below 80 (R37, R188; log entry 8). -/
def fontByte (a : Nat) : Byte := Config.defaultFont.toList.getD a 0

/-- What an unlisted address reads as: the font at 0 to 79 (R37), and 0 elsewhere (DESIGN CHOICE: R41 states no
value; log entry 6). -/
def Memory.unlisted (a : Nat) : Byte := if a < 80 then fontByte a else 0

/-- The byte at an address. -/
def Memory.read : Memory → Nat → Byte
  | [], a => unlisted a
  | c :: m, a => if c.1 = a then c.2 else Memory.read m a

/-- The cells of a memory without those at one address. -/
def Memory.erase (m : Memory) (a : Nat) : Memory := m.filter fun c => c.1 ≠ a

/-- A cell put in its place in the rising order. -/
def Memory.insert (c : Host.Cell) : Memory → Memory
  | [] => [c]
  | d :: m => if c.1 < d.1 then c :: d :: m else d :: Memory.insert c m

/-- A memory after one byte is written: a cell that would repeat what an unlisted address reads as is left out. -/
def Memory.write (m : Memory) (a : Nat) (b : Byte) : Memory :=
  if b = unlisted a then Memory.erase m a else Memory.insert (a, b) (Memory.erase m a)

/-- The canonical form: addresses strictly rising and inside the memory, and no entry equal to what an unlisted
address reads as. -/
abbrev Memory.wf (m : Memory) : Prop :=
  m.Pairwise (fun c d => c.1 < d.1) ∧ ∀ c ∈ m, c.1 < Config.memSize ∧ c.2 ≠ unlisted c.1

/-- `MemRead(a, 1)` (R51). -/
def State.memRead (s : State) (a : Nat) : Except FaultKind Byte :=
  if a < Config.memSize then .ok (s.mem.read a) else .error (.outOfRangeMem a)

/-- The state with its memory replaced. -/
def State.setMem (s : State) (m : Memory) : State := { s with mem := m }

/-- `MemWrite(a, 1, v)` (R52, R61): every address in range is writable. -/
def State.memWrite (s : State) (a : Nat) (b : Byte) : Except FaultKind State :=
  if a < Config.memSize then .ok (s.setMem (s.mem.write a b)) else .error (.outOfRangeMem a)

/-- `Fetch(a)`: both bytes must be in range, the lower address is reported first, high byte first (R54). -/
def State.fetch (s : State) (a : Nat) : Except FaultKind Word :=
  match s.memRead a with
  | .error k => .error k
  | .ok high =>
    match s.memRead (a + 1) with
    | .error k => .error k
    | .ok low => .ok (wordOfBytes high low)

/-- `n` bytes from `a` on, in increasing order; the first address out of range is the error (R56, R146). -/
def State.memReads (s : State) (a : Nat) : Nat → Except FaultKind (List Byte)
  | 0 => .ok []
  | n + 1 =>
    match s.memRead a with
    | .error k => .error k
    | .ok b =>
      match s.memReads (a + 1) n with
      | .error k => .error k
      | .ok bs => .ok (b :: bs)

/-! Registers and timers -/

/-- `V[r]` (R20). -/
def State.getV (s : State) (r : Reg) : Byte := s.v[r]

/-- `V[r] <- b` (R20, R21). -/
def State.setV (s : State) (r : Reg) (b : Byte) : State := { s with v := s.v.set r b }

/-- `I <- w` (R24). -/
def State.setI (s : State) (w : Word) : State := { s with i := w }

/-- `DT <- b` (R29). -/
def State.setDT (s : State) (b : Byte) : State := { s with dt := b }

/-- `ST <- b` (R29). -/
def State.setST (s : State) (b : Byte) : State := { s with st := b }

/-! Control transfer and the call stack -/

/-- A control transfer: `PC <- target; adv_suppress <- 1` (R101). -/
def State.transfer (s : State) (target : Word) : State := { s with pc := target, advSuppress := true }

/-- `Skip()`: PC <- A + 4 and adv_suppress <- 1 (R112, the spec's decision D3; log entry 15). -/
def State.skip (s : State) : State := s.transfer (s.pc + 4)

/-- SP as the integer of R27: -1 when the stack is empty. -/
def State.spValue (s : State) : Int :=
  match s.sp with
  | none => -1
  | some k => k

/-- The slot the next push writes; none when all 16 are in use (R28). -/
def State.nextSlot (s : State) : Option (Fin 16) :=
  match s.sp with
  | none => some 0
  | some k => if k = 15 then none else some (k + 1)

/-- The state with one stack slot written and SP at it. -/
def State.pushAt (s : State) (k : Fin 16) (w : Word) : State := { s with stack := s.stack.set k w, sp := some k }

/-- `Push(v)`: StackOverflow at SP = 15, and then nothing changes (R28, R205; log entry 17). -/
def State.push (s : State) (w : Word) : Except FaultKind State :=
  match s.nextSlot with
  | none => .error .stackOverflow
  | some k => .ok (s.pushAt k w)

/-- The state with SP one lower than `k`. -/
def State.dropTop (s : State) (k : Fin 16) : State := { s with sp := if k = 0 then none else some (k - 1) }

/-- `Pop()`: StackUnderflow at SP = -1, and then nothing changes (R28, R205; log entry 17). -/
def State.pop (s : State) : Except FaultKind (Word × State) :=
  match s.sp with
  | none => .error .stackUnderflow
  | some k => .ok (s.stack[k], s.dropTop k)

/-! The framebuffer -/

/-- The pixel at column x of row y. -/
def pixel (f : Framebuffer) (x : Fin 64) (y : Fin 32) : Bool := f[y][x]

/-- The grid with one pixel set. -/
def setPixel (f : Framebuffer) (x : Fin 64) (y : Fin 32) (b : Bool) : Framebuffer :=
  f.set y (f[y].set x b)

/-- The state with its framebuffer replaced. -/
def State.setFb (s : State) (f : Framebuffer) : State := { s with fb := f }

/-- The coordinates of a pixel that exists: 0 ≤ x < 64 and 0 ≤ y < 32 (R140). -/
def fbCoord (x y : Int) : Except FaultKind (Fin 64 × Fin 32) :=
  if 0 ≤ x ∧ x < 64 ∧ 0 ≤ y ∧ y < 32 then .ok (Fin.ofNat 64 x.toNat, Fin.ofNat 32 y.toNat)
  else .error (.outOfRangeFb x y)

/-- `FbGet(x, y)` (R140). -/
def State.fbGet (s : State) (x y : Int) : Except FaultKind Bool :=
  match fbCoord x y with
  | .error k => .error k
  | .ok p => .ok (pixel s.fb p.1 p.2)

/-- `FbSet(x, y, b)` (R140). -/
def State.fbSet (s : State) (x y : Int) (b : Bool) : Except FaultKind State :=
  match fbCoord x y with
  | .error k => .error k
  | .ok p => .ok (s.setFb (setPixel s.fb p.1 p.2 b))

/-! Raising a fault -/

/-- The code of a fault kind (R201, the spec's decision D23; log entry 31). No program reads it. -/
def FaultKind.code : FaultKind → Nat
  | .outOfRangeMem _ => 1
  | .outOfRangeFb _ _ => 2
  | .unrecognizedInstruction _ => 3
  | .stackOverflow => 4
  | .stackUnderflow => 5

/-- The state with its `run` replaced. -/
def State.setRun (s : State) (r : Run) : State := { s with run := r }

/-- The state after an error the host is told of between steps: a running machine's run ends with the record, and an
earlier fault record is kept for good (10_state.md R33; log entry 32). -/
def State.endRun (s : State) (f : FaultRecord) : State :=
  match s.run with
  | .running => s.setRun (.faulted f)
  | .faulted _ => s

/-- `raise E(info)` with pc = `a`: `run <- Faulted(E(info) with pc = a)`, everything done before it stands, and the
step ends (R200, R204; log entries 1 and 24). The one way the core takes a fault; there is no handler and no return (R209, R210). -/
def raiseAt (a : Word) (k : FaultKind) (s : State) : Result :=
  .fault (.raised ⟨k, a⟩ (s.setRun (.faulted ⟨k, a⟩)))

/-- `raise E(info)` in a step: pc = A, which is PC after phase 2 (R200). -/
def raise (k : FaultKind) (s : State) : Result := raiseAt s.pc k s

/-- Byte writes from `a` on, in increasing order; the writes before a raise stand (R56, R204). -/
def memWrites (a : Nat) : List Byte → State → Result
  | [], s => .next s
  | b :: bs, s =>
    match s.memWrite a b with
    | .error k => raise k s
    | .ok t => memWrites (a + 1) bs t

/-- Register loads from `a` on, one byte each, in the order of the list; the loads before a raise stand (R187, R204). -/
def loadsV (a : Nat) : List Reg → State → Result
  | [], s => .next s
  | r :: rs, s =>
    match s.memRead a with
    | .error k => raise k s
    | .ok b => loadsV (a + 1) rs (s.setV r b)

/-! The phases of a step (R100) -/

/-- The inputs of the coming step: the oldest scheduled one, or a free one (R44; log entry 3). -/
def State.nextInput (s : State) : StepInput :=
  match s.inputs with
  | e :: _ => e
  | [] => Config.freeInput s.draws

/-- The step's inputs are sampled, once (R44; log entry 3). -/
def State.sample (s : State) : State :=
  { s with
    inp := s.nextInput
    inputs := s.inputs.tail
    draws := if s.inputs.isEmpty then s.draws + 1 else s.draws }

/-- A timer after `d` whole periods: `T - min(T, d)`; at 0 it stays at 0 and performs no time accounting (R170). -/
def decay (t : Byte) (d : Nat) : Byte := if t = 0 then t else BitVec.ofNat 8 (t.toNat - min t.toNat d)

/-- Phase 1: the timer-pair tick (R100, R170). -/
def State.tick (s : State) : State := { s with dt := decay s.dt s.inp.dDT, st := decay s.st s.inp.dST }

/-- `next_fetch`: PC if adv_suppress = 1, else PC + 2, as an exact integer (R25, R57; log entries 12 and 21). -/
def State.nextFetch (s : State) : Nat := if s.advSuppress then s.pc.toNat else s.pc.toNat + 2

/-- Phase 2: the conditional advance; the flag is read and cleared (R26, R100). -/
def State.advance (s : State) : State := { s with pc := BitVec.ofNat 16 s.nextFetch, advSuppress := false }

/-- The state in which phases 3 and 4 run: inputs sampled, timers ticked, PC at the instruction's address A (R100). -/
def State.enter (s : State) : State := s.sample.tick.advance

end Sys2Proof.Machine
end

