-- ==== Sys2Proof/Machine/Operands.lean ====
section
/-! DEFINITION. The operand forms: immediates and addresses (30_encoding.md R73), the shift's source register
(41_alu.md R128), effective addresses (20_memory.md R57), decimal digits (44_index_memory.md R189), glyph addresses
(R184), the registers of a block transfer (R186, R187), and the key sample (43_keys_timers.md R163). -/

namespace Sys2Proof.Machine

/-- `zext_16(nnn)` (R9, R73). -/
def zext16 (nnn : Addr12) : Word := nnn.setWidth 16

/-- The effective address I + k, an exact integer that never wraps (R57, the spec's decision D16; log entry 21). -/
def State.ea (s : State) (k : Nat) : Nat := s.i.toNat + k

/-- The value a shift reads: Vy under the run's `SHIFT_READS_VY`, else Vx (R128, R130, the spec's decision D6; log
entry 9). -/
def State.shiftSource (s : State) (x y : Reg) : Byte := s.getV (if s.switches.shiftReadsVy then y else x)

/-- `digit(v, n)`: the nth decimal digit, 1-indexed from the units place (R11, R189). -/
def digit (v : Byte) (n : Nat) : Byte := BitVec.ofNat 8 (v.toNat / 10 ^ (n - 1) % 10)

/-- The hundreds, tens and units digits, in the order LD B stores them (R185). -/
def bcdDigits (v : Byte) : List Byte := [digit v 3, digit v 2, digit v 1]

/-- `5 * V[x]`, which always fits 16 bits; the value is not reduced to its low nibble (R184). -/
def glyphAddress (v : Byte) : Word := BitVec.ofNat 16 (5 * v.toNat)

/-- V0 to Vx, in increasing order (R186, R187). -/
def regsUpTo (x : Reg) : List Reg := (List.range (x.val + 1)).map (Fin.ofNat 16)

/-- Is the register's value the code of the pressed key: false when none is pressed, and false for a value above 15
(R160, R163, the spec's decision D14; log entry 20). -/
def State.keyEquals (s : State) (x : Reg) : Bool :=
  match s.inp.key with
  | none => false
  | some k => (s.getV x).toNat == k.val

end Sys2Proof.Machine
end

