-- ==== Sys2Proof/Machine/Boot.lean ====
section
/-! DEFINITION. What the host does to the machine beside calling step: construction and image load (70_reset_and_hazards.md
R230, 20_memory.md R62) and the display poll (42_display.md R140, 60_exceptions.md R215). A host that writes the state in
any other way is not modelled (93_implementation_defined.md U18; log entry 28). -/

namespace Sys2Proof.Machine

/-- Bytes written one after another from an address on, with no bounds check. -/
def Memory.writeList (m : Memory) (a : Nat) : List Byte → Memory
  | [] => m
  | b :: bs => Memory.writeList (m.write a b) (a + 1) bs

/-- `INIT_MEM`: the pairs that lie in 80 to 4095, each written over the default of 0, a later pair over an earlier
one (R41; log entry 6). -/
def Memory.ofPairs : List (Nat × Byte) → Memory → Memory
  | [], m => m
  | c :: cs, m => Memory.ofPairs cs (if 80 ≤ c.1 ∧ c.1 < Config.memSize then m.write c.1 c.2 else m)

/-- Construction: the state after reset for any launch parameters and switches (R36 to R43, R230 step 1). -/
def construct (p : Config.Launch) : State where
  v := p.initV
  i := p.initI
  pc := BitVec.ofNat 16 Config.loadOffset
  advSuppress := true
  stack := Vector.replicate 16 0
  sp := none
  dt := p.initDT
  st := p.initST
  fb := p.initFB
  mem := (Memory.ofPairs p.initMem []).writeList 0 p.font.toList
  run := .running
  switches := p.switches
  inp := .quiet
  inputs := []
  draws := 0

/-- The bytes of an image from address `a` on; the first address out of range faults, with pc recorded as 0x200 and the
bytes before it written (R62, R201, R207). -/
def loadFrom (a : Nat) : List Byte → State → Result
  | [], s => .next s
  | b :: bs, s =>
    match s.memWrite a b with
    | .error k => raiseAt (BitVec.ofNat 16 Config.loadOffset) k s
    | .ok t => loadFrom (a + 1) bs t

/-- `loadImage(bytes)`: `MemWrite(512 + k, 1, bytes[k])` for each k in increasing order (R62; log entry 27). -/
def loadImage (image : List Byte) (s : State) : Result := loadFrom Config.loadOffset image s

/-- A run's start: construction, then the image (R230 steps 1 and 2). -/
def boot (p : Config.Launch) (image : List Byte) : Result := loadImage image (construct p)

/-- What a display poll answers: the pixel, with no change of state (R220), or the fault that ends the run
(R215, the spec's decision D28; log entry 25). The spec does not say what a poll of an already Faulted run answers: here,
as a DESIGN CHOICE (log entry 32), the pixel or OutOfRange again goes to the host, and the run keeps its first record
(R33). -/
def displayPoll (x y : Int) (s : State) : Except Fault Bool :=
  match s.fbGet x y with
  | .ok b => .ok b
  | .error k => .error (.raised ⟨k, s.pc⟩ (s.endRun ⟨k, s.pc⟩))

end Sys2Proof.Machine
end

