-- ==== Sys2Proof/Machine/Flags.lean ====
section
/-! DEFINITION. The values written to VF as a flag (10_state.md R22, 41_alu.md R126 to R133, 42_display.md R146). -/

namespace Sys2Proof.Machine

/-- A flag as a full byte: 0x00 or 0x01 (R132). -/
def flagByte (b : Bool) : Byte := if b then 1 else 0

/-- Carry out: 1 iff the unsigned sum is above 255 (R126). -/
def carryOut (a b : Byte) : Bool := decide (255 < a.toNat + b.toNat)

/-- No borrow needed: 1 iff minuend ≥ subtrahend (R127, R129). -/
def noBorrow (minuend subtrahend : Byte) : Bool := decide (subtrahend.toNat ≤ minuend.toNat)

/-- The bit a right shift moves out: the low bit (R128). -/
def lowBit (a : Byte) : Bool := a.getLsbD 0

/-- The bit a left shift moves out: the high bit (R130). -/
def highBit (a : Byte) : Bool := a.getLsbD 7

/-- The result is written first, then the flag, so that with x = F the flag stays (R133, the spec's decision D8;
log entry 18). -/
def State.setResultAndFlag (s : State) (x : Reg) (result : Byte) (flag : Bool) : State :=
  (s.setV x result).setV VF (flagByte flag)

/-- The flag of SHL: assigned, or exclusive-ored into VF as it stands after the result write under the run's
`SHL_FLAG_XOR` (R130, the spec's decision D7; log entry 10). -/
def State.setResultAndShlFlag (s : State) (x : Reg) (result : Byte) (flag : Bool) : State :=
  if s.switches.shlFlagXor then (s.setV x result).setV VF ((s.setV x result).getV VF ^^^ flagByte flag)
  else s.setResultAndFlag x result flag

end Sys2Proof.Machine
end

