-- ==== Sys2Proof/Machine/Alu.lean ====
section
/-! DEFINITION. The register file and the ALU (41_alu.md). None of these touches PC or adv_suppress, and none raises. Every
source register is read before any register is written (R103; log entry 18). -/

namespace Sys2Proof.Machine

/-- LD Vx, kk: `V[x] <- kk` (R120). -/
def execLdImm (x : Reg) (kk : Byte) (s : State) : Result := .next (s.setV x kk)

/-- ADD Vx, kk: `V[x] <- trunc_8(V[x] + kk)`, no flag (R121). -/
def execAddImm (x : Reg) (kk : Byte) (s : State) : Result := .next (s.setV x (s.getV x + kk))

/-- LD Vx, Vy: `V[x] <- V[y]` (R122). -/
def execLdReg (x y : Reg) (s : State) : Result := .next (s.setV x (s.getV y))

/-- OR Vx, Vy; VF is unchanged unless x = F (R123, R134; log entry 19). -/
def execOr (x y : Reg) (s : State) : Result := .next (s.setV x (s.getV x ||| s.getV y))

/-- AND Vx, Vy; VF is unchanged unless x = F (R124, R134; log entry 19). -/
def execAnd (x y : Reg) (s : State) : Result := .next (s.setV x (s.getV x &&& s.getV y))

/-- XOR Vx, Vy; VF is unchanged unless x = F (R125, R134; log entry 19). -/
def execXor (x y : Reg) (s : State) : Result := .next (s.setV x (s.getV x ^^^ s.getV y))

/-- ADD Vx, Vy: the sum mod 256, and VF = carry out (R126). -/
def execAddReg (x y : Reg) (s : State) : Result :=
  .next (s.setResultAndFlag x (s.getV x + s.getV y) (carryOut (s.getV x) (s.getV y)))

/-- SUB Vx, Vy: Vx - Vy mod 256, and VF = no borrow (R127). -/
def execSub (x y : Reg) (s : State) : Result :=
  .next (s.setResultAndFlag x (s.getV x - s.getV y) (noBorrow (s.getV x) (s.getV y)))

/-- SHR Vx {, Vy}: a logical shift right by one of the source the run's switch selects, VF = the low bit (R128, the
spec's decisions D6 and D30; log entry 9). -/
def execShr (x y : Reg) (s : State) : Result :=
  .next (s.setResultAndFlag x (s.shiftSource x y >>> 1) (lowBit (s.shiftSource x y)))

/-- SUBN Vx, Vy: Vy - Vx mod 256, and VF = no borrow (R129). -/
def execSubn (x y : Reg) (s : State) : Result :=
  .next (s.setResultAndFlag x (s.getV y - s.getV x) (noBorrow (s.getV y) (s.getV x)))

/-- SHL Vx {, Vy}: a shift left by one of the source the run's switch selects, masked to 8 bits, VF = the high bit, or VF
exclusive-or the high bit (R130, the spec's decisions D6, D7 and D30; log entries 9 and 10). -/
def execShl (x y : Reg) (s : State) : Result :=
  .next (s.setResultAndShlFlag x (s.shiftSource x y <<< 1) (highBit (s.shiftSource x y)))

/-- RND Vx, kk: `V[x] <- rnd & kk`, with the step's random byte (R131; log entry 3). -/
def execRnd (x : Reg) (kk : Byte) (s : State) : Result := .next (s.setV x (s.inp.rnd &&& kk))

end Sys2Proof.Machine
end

