-- ==== Sys2Proof/Machine/Control.lean ====
section
/-! DEFINITION. Control transfer (40_control.md): RET, JP, CALL, the skips and the indexed jump. Each runs in phase 4, with
PC at the instruction's own address A. -/

namespace Sys2Proof.Machine

/-- The state after a skip that is taken or not: when it is not, the next fetch is at A + 2 (R101, R112). -/
def State.skipIf (s : State) (taken : Bool) : State := if taken then s.skip else s

/-- RET: `r <- Pop(); PC <- r; adv_suppress <- 1` (R104). -/
def execRet (s : State) : Result :=
  match s.pop with
  | .error k => raise k s
  | .ok (r, t) => .next (t.transfer r)

/-- JP nnn: `PC <- zext_16(nnn); adv_suppress <- 1` (R105). -/
def execJp (nnn : Addr12) (s : State) : Result := .next (s.transfer (zext16 nnn))

/-- CALL nnn: `Push(A + 2); PC <- zext_16(nnn); adv_suppress <- 1` (R106; log entry 16). -/
def execCall (nnn : Addr12) (s : State) : Result :=
  match s.push (s.pc + 2) with
  | .error k => raise k s
  | .ok t => .next (t.transfer (zext16 nnn))

/-- SE Vx, kk: skip if V[x] = kk (R107). -/
def execSeImm (x : Reg) (kk : Byte) (s : State) : Result := .next (s.skipIf (s.getV x == kk))

/-- SNE Vx, kk: skip if V[x] != kk (R108). -/
def execSneImm (x : Reg) (kk : Byte) (s : State) : Result := .next (s.skipIf (s.getV x != kk))

/-- SE Vx, Vy: skip if V[x] = V[y] (R109). -/
def execSeReg (x y : Reg) (s : State) : Result := .next (s.skipIf (s.getV x == s.getV y))

/-- SNE Vx, Vy: skip if V[x] != V[y] (R110). -/
def execSneReg (x y : Reg) (s : State) : Result := .next (s.skipIf (s.getV x != s.getV y))

/-- JP V0, nnn: `PC <- zext_16(nnn) + V[0]; adv_suppress <- 1`; the sum fits 16 bits and is not masked (R111). -/
def execJpV0 (nnn : Addr12) (s : State) : Result :=
  .next (s.transfer (BitVec.ofNat 16 (nnn.toNat + (s.getV V0).toNat)))

end Sys2Proof.Machine
end

