-- ==== Sys2Proof/Machine/Display.lean ====
section
/-! DEFINITION. The framebuffer and the sprite-blit engine (42_display.md). Neither instruction touches PC or
adv_suppress. -/

namespace Sys2Proof.Machine

/-- A framebuffer during a blit, and whether a pixel has gone from on to off. -/
structure Blit where
  fb       : Framebuffer
  collided : Bool
  deriving DecidableEq, Repr

/-- One visit of a set sprite bit: the pixel toggles, and turning it off is a collision (R142). -/
def blitPixel (x : Fin 64) (y : Fin 32) (b : Blit) : Blit :=
  if pixel b.fb x y then ⟨setPixel b.fb x y false, true⟩ else ⟨setPixel b.fb x y true, b.collided⟩

/-- Column `col` of row `r` of a sprite with its origin at (ox, oy): bit 7 is column 0, and both axes wrap (R142, R143). -/
def blitColumn (row : Byte) (ox oy r : Nat) (b : Blit) (col : Nat) : Blit :=
  if row.getLsbD (7 - col) then blitPixel (Fin.ofNat 64 (ox + col)) (Fin.ofNat 32 (oy + r)) b else b

/-- The eight columns of a row (R142). -/
def blitRow (row : Byte) (ox oy r : Nat) (b : Blit) : Blit :=
  (List.range 8).foldl (blitColumn row ox oy r) b

/-- The rows of a sprite from row `r` on (R142). -/
def blitRows (ox oy : Nat) : Nat → List Byte → Blit → Blit
  | _, [], b => b
  | r, row :: rows, b => blitRows ox oy (r + 1) rows (blitRow row ox oy r b)

/-- `blitSprite(rows, originX, originY)`: the new framebuffer and `collided` (R142). -/
def blitSprite (rows : List Byte) (ox oy : Nat) (f : Framebuffer) : Blit := blitRows ox oy 0 rows ⟨f, false⟩

/-- CLS: `clear()` turns every pixel off; VF is unchanged (R141, R145). -/
def execCls (s : State) : Result := .next (s.setFb Config.blankScreen)

/-- DRW Vx, Vy, n: every sprite byte is read before any pixel changes (the spec's decision D27; log entry 24), then the
blit, then VF (R146). -/
def execDrw (x y : Reg) (n : Nibble) (s : State) : Result :=
  match s.memReads (s.ea 0) n.toNat with
  | .error k => raise k s
  | .ok rows =>
    let b := blitSprite rows (s.getV x).toNat (s.getV y).toNat s.fb
    .next ((s.setFb b.fb).setV VF (flagByte b.collided))

end Sys2Proof.Machine
end

