-- ==== Sys2Proof/Machine/IndexMemory.lean ====
section
/-! DEFINITION. The index register, font addressing, BCD and block transfer (44_index_memory.md). None of these touches PC or
adv_suppress, none writes VF as a flag, and the transfers leave I unchanged (D18; log entry 22). -/

namespace Sys2Proof.Machine

/-- LD I, nnn (R180). -/
def execLdI (nnn : Addr12) (s : State) : Result := .next (s.setI (zext16 nnn))

/-- ADD I, Vx: `I <- (I + V[x]) mod 65536`, no flag (R181, the spec's decision D17; log entry 22). -/
def execAddI (x : Reg) (s : State) : Result := .next (s.setI (s.i + (s.getV x).setWidth 16))

/-- LD F, Vx: `I <- 5 * V[x]` (R184). -/
def execLdF (x : Reg) (s : State) : Result := .next (s.setI (glyphAddress (s.getV x)))

/-- LD B, Vx: the three digits at I, I + 1, I + 2 (R185). -/
def execLdB (x : Reg) (s : State) : Result := memWrites (s.ea 0) (bcdDigits (s.getV x)) s

/-- LD [I], Vx: V0 to Vx at I to I + x (R186). -/
def execStoreRegs (x : Reg) (s : State) : Result := memWrites (s.ea 0) ((regsUpTo x).map s.getV) s

/-- LD Vx, [I]: V0 to Vx from I to I + x (R187). -/
def execLoadRegs (x : Reg) (s : State) : Result := loadsV (s.ea 0) (regsUpTo x) s

end Sys2Proof.Machine
end

