-- ==== Sys2Proof/Machine/KeysTimers.lean ====
section
/-! DEFINITION. Key input, key wait and the timer pair (43_keys_timers.md). The key is the one sample of the current step
(R163; log entries 3 and 20). -/

namespace Sys2Proof.Machine

/-- SKP Vx: skip if a key is pressed and its code equals V[x] (R160). -/
def execSkp (x : Reg) (s : State) : Result := .next (s.skipIf (s.keyEquals x))

/-- SKNP Vx: skip if no key is pressed or its code differs from V[x] (R161). -/
def execSknp (x : Reg) (s : State) : Result := .next (s.skipIf (!s.keyEquals x))

/-- LD Vx, DT: DT as this step's tick left it (R162). -/
def execLdVxDT (x : Reg) (s : State) : Result := .next (s.setV x s.dt)

/-- LD Vx, K: with no key, the same instruction runs again at the next step; with a key, its code is stored
(R164, R219). -/
def execLdVxK (x : Reg) (s : State) : Result :=
  .next (match s.inp.key with
    | none => s.transfer s.pc
    | some k => s.setV x (BitVec.ofNat 8 k.val))

/-- LD DT, Vx (R165). -/
def execLdDTVx (x : Reg) (s : State) : Result := .next (s.setDT (s.getV x))

/-- LD ST, Vx (R166). -/
def execLdSTVx (x : Reg) (s : State) : Result := .next (s.setST (s.getV x))

end Sys2Proof.Machine
end

