-- ==== Sys2Proof/Machine/Step.lean ====
section
/-! DEFINITION. One step (40_control.md R100), and the placing of an instruction where the next step fetches. -/

namespace Sys2Proof.Machine

/-- `step(S, in)`: sample the inputs, tick the timers, advance PC, fetch, decode, execute (R44, R100). A fetch or
decode fault ends the step with the tick and the advance done (R102). A faulted state has no step (R33; log entry 2). -/
def step (s : State) : Host.Outcome State Fault Refusal :=
  match s.run with
  | .faulted r => .fault (.noStep r)
  | .running =>
    match s.enter.fetch s.nextFetch with
    | .error k => raise k s.enter
    | .ok w =>
      match decode w with
      | .ok i => exec i s.enter
      | .error _ => raise (.unrecognizedInstruction w) s.enter

/-- The state with the table's word `w` of `nbits` bits stored where the next step fetches, high byte first. An address
outside the memory takes no byte. -/
def State.withFetchWord (s : State) (nbits w : Nat) : State :=
  if s.nextFetch + 1 < Config.memSize then
    s.setMem (s.mem.writeList s.nextFetch [highByte (tableWord nbits w), lowByte (tableWord nbits w)])
  else s

end Sys2Proof.Machine
end

