-- ==== Sys2Proof/Safety.lean ====
section
/-! DEFINITION. The terms claims use: safe runs, frames, the invariants of the machine, the end of a run
(70_reset_and_hazards.md R240), and the named premises `clean_entry` (R232) and timer fairness (43_keys_timers.md R171). -/

namespace Sys2Proof.Machine

/-- A step from `s` completes: it answers a next state, so no fault is raised and nothing is refused. -/
def State.StepsSafely (s : State) : Prop := ∃ t, step s = .next t

/-- `k` steps from `s` complete. -/
def State.RunsSafely (s : State) (k : Nat) : Prop := ∃ t, Sys2Proof.core.run k s = .next t

/-- The parts of a state beside the general registers and memory. The control part is PC with adv_suppress, and the
stack part is the call stack with SP. -/
inductive Part where
  | index | control | stack | delay | sound | screen
  deriving DecidableEq, Repr

/-- What an instruction leaves unchanged from `s` to `t`: every general register outside `regs`, every part outside
`parts`, every byte of memory outside `cells`, and always the run status, the switches (R36) and the input fields. -/
structure Frame (regs : List Reg) (parts : List Part) (cells : Nat → Prop) (s t : State) : Prop where
  regs    : ∀ r, r ∉ regs → t.getV r = s.getV r
  index   : Part.index ∉ parts → t.i = s.i
  control : Part.control ∉ parts → t.pc = s.pc ∧ t.advSuppress = s.advSuppress
  stack   : Part.stack ∉ parts → t.stack = s.stack ∧ t.sp = s.sp
  delay   : Part.delay ∉ parts → t.dt = s.dt
  sound   : Part.sound ∉ parts → t.st = s.st
  screen  : Part.screen ∉ parts → t.fb = s.fb
  memory  : ∀ a, ¬ cells a → t.memRead a = s.memRead a
  run     : t.run = s.run
  config  : t.switches = s.switches
  inputs  : t.inp = s.inp ∧ t.inputs = s.inputs ∧ t.draws = s.draws

/-- No byte of memory. -/
def noCells : Nat → Prop := fun _ => False

/-- A skip: taken exactly when `P` holds, it sets PC to A + 4 and adv_suppress; not taken, it changes nothing, and
the next fetch is at A + 2, since phase 2 has cleared the flag (40_control.md R101, R112). -/
def SkipsWhen (o : Result) (s : State) (P : Prop) : Prop :=
  ∃ t, o = .next t ∧ (P → t.pc = s.pc + 4 ∧ t.advSuppress = true) ∧
    (¬ P → t.pc = s.pc ∧ t.advSuppress = s.advSuppress) ∧ Frame [] [.control] noCells s t

/-- The `n` bytes from `a` on. -/
def cellsFrom (a n : Nat) : Nat → Prop := fun b => a ≤ b ∧ b < a + n

/-- The bounds every PC and every saved return address keep in a run (40_control.md R100, R106, R111): PC is at most
0x10FE, and the slots in use hold at most 4096. -/
def State.CodeBounded (s : State) : Prop :=
  s.pc.toNat ≤ 0x10FE ∧ ∀ k : Fin 16, (∃ top, s.sp = some top ∧ k ≤ top) → s.stack[k].toNat ≤ 4096

/-- An outcome with the step inputs of its state replaced. -/
def withInput (e : StepInput) : Result → Result
  | .next t => .next { t with inp := e }
  | .fault (.raised r t) => .fault (.raised r { t with inp := e })
  | .fault (.noStep r) => .fault (.noStep r)
  | .refused r => .refused r

/-- The instructions that sample the key (R44, R163). -/
def readsKey : Instr → Bool
  | .skp _ => true
  | .sknp _ => true
  | .ldVxK _ => true
  | _ => false

/-- The instruction that reads the random byte (R44, R131). -/
def readsRandom : Instr → Bool
  | .rnd _ _ => true
  | _ => false

/-- The registers V0 to Vx. -/
def lowRegs (x : Reg) : List Reg := (List.finRange 16).filter fun r => r.val ≤ x.val

/-- The `writes` column of 10_state.md R23. -/
def destinations : Instr → List Reg
  | .ldImm x _ | .addImm x _ | .ldReg x _ | .or x _ | .and x _ | .xor x _ | .rnd x _ => [x]
  | .ldVxDT x | .ldVxK x => [x]
  | .addReg x _ | .sub x _ | .subn x _ | .shr x _ | .shl x _ => [x, VF]
  | .drw _ _ _ => [VF]
  | .loadRegs x => lowRegs x
  | _ => []

/-- The instructions that may redirect control (40_control.md R101). -/
def mayTransfer : Instr → Bool
  | .ret | .jp _ | .call _ | .jpV0 _ => true
  | .seImm _ _ | .sneImm _ _ | .seReg _ _ | .sneReg _ _ | .skp _ | .sknp _ => true
  | .ldVxK _ => true
  | _ => false

/-- The parts of the state, beside registers and memory, that an instruction may change (the instruction rules R104 to
R187). -/
def touches : Instr → List Part
  | .cls | .drw _ _ _ => [.screen]
  | .ldI _ | .addI _ | .ldF _ => [.index]
  | .call _ | .ret => [.control, .stack]
  | .ldDTVx _ => [.delay]
  | .ldSTVx _ => [.sound]
  | i => if mayTransfer i then [.control] else []

/-- The bytes an instruction stores to: three for LD B, x + 1 for LD [I], Vx (R185, R186). -/
def stores (s : State) : Instr → Nat → Prop
  | .ldB _ => cellsFrom s.i.toNat 3
  | .storeRegs x => cellsFrom s.i.toNat (x.val + 1)
  | _ => noCells

/-- The end of a run: running, and the word at the next fetch address A is `1nnn` with nnn = A (R240, the spec's
decision D26; log entry 29). It does not say that the machine stops or that the timers are stable. -/
def State.AtEnd (s : State) : Prop :=
  s.run = .running ∧ ∃ nnn : Addr12, nnn.toNat = s.nextFetch ∧ s.fetch s.nextFetch = .ok (wordA 0x1 nnn)

/-- The launch premise `clean_entry` (R232): a named assumption, not a fact of the source. -/
def State.CleanEntry (s : State) : Prop :=
  (∀ r, s.getV r = 0) ∧ s.i = 0 ∧ s.dt = 0 ∧ s.st = 0 ∧ s.fb = Config.blankScreen ∧
    ∀ a, 80 ≤ a → a < Config.memSize → s.memRead a = .ok 0

/-- Timer fairness (R171), for the inputs drawn from the free stream: a named premise for claims that need a timer to
reach 0. -/
def TimerFairness : Prop :=
  ∀ n, (∃ m, n ≤ m ∧ 1 ≤ (Config.freeInput m).dDT) ∧ ∃ m, n ≤ m ∧ 1 ≤ (Config.freeInput m).dST

/-- The sprite mask of R142 to R144: bit `7 - col` of some row r lands on (x, y), with both axes taken modulo the
screen. `row r` is the rth sprite byte and `n` how many there are. -/
def spriteMask (row : Nat → Byte) (n ox oy : Nat) (x : Fin 64) (y : Fin 32) : Prop :=
  ∃ r, r < n ∧ ∃ col, col < 8 ∧ (row r).getLsbD (7 - col) = true ∧ x.val = (ox + col) % 64 ∧ y.val = (oy + r) % 32

end Sys2Proof.Machine
end

