-- ==== Sys2Proof/Certificates/Slice0/Obligations.lean ====
section
/-! DEFINITION. The statements for the provers, from the numbered rules of spec/. A number in parentheses is a rule. Where a
clause rests on a decision the spec marks as its own (D<n>) or on a log entry, the docstring says so. -/

open Sys2Proof Sys2Proof.Machine

/-! Encoding -/

/-- Decoding the word of any instruction gives it back, with every operand at every value (30_encoding.md sections 1 to
3). The opcode values are the spec's own adoption (D20, log entry 11). -/
def Obligations.DecodeOfEncodedInstruction : Prop :=
  ∀ i : Instr, decode (encode i) = .ok i

/-- Every recognized word is the encoding of the one instruction it decodes to: no two rows overlap and no bit is
dropped (30_encoding.md section 3). The opcode values are the spec's own adoption (D20, log entry 11). -/
def Obligations.RecognizedWordIsItsEncoding : Prop :=
  ∀ (w : Word) (i : Instr), decode w = .ok i → encode i = w

/-- Exactly the words listed in 30_encoding.md section 4 are Unrecognized, and the error carries the word. Strict
matching is the spec's decision D19 (log entry 23). -/
def Obligations.UnrecognizedWordsExactly : Prop :=
  ∀ w : Word,
    (∀ e, decode w = .error e → e = .unrecognized w) ∧
    ((∃ e, decode w = .error e) ↔
      let c := w.toNat / 4096
      let n := w.toNat % 16
      let kk := w.toNat % 256
      (c = 0x0 ∧ w.toNat ≠ 0x00E0 ∧ w.toNat ≠ 0x00EE) ∨
      (c = 0x5 ∧ n ≠ 0) ∨
      (c = 0x8 ∧ n ∈ [0x8, 0x9, 0xA, 0xB, 0xC, 0xD, 0xF]) ∨
      (c = 0x9 ∧ n ≠ 0) ∨
      (c = 0xE ∧ kk ∉ [0x9E, 0xA1]) ∨
      (c = 0xF ∧ kk ∉ [0x07, 0x0A, 0x15, 0x18, 0x1E, 0x29, 0x33, 0x55, 0x65]))

/-- The two bytes of an instruction, high byte first, decode to it and leave the rest; fewer than two bytes are
refused (30_encoding.md section 1). -/
def Obligations.InstructionBytesRoundTrip : Prop :=
  (∀ (i : Instr) (rest : List Byte), decodeBytes (encodeBytes i ++ rest) = .ok (i, rest)) ∧
  ∀ bs : List Byte, bs.length < 2 → decodeBytes bs = .error .truncated

/-- A few words of the table, written out from 30_encoding.md section 3, one or more for each family. The opcode values
are the spec's own adoption (D20, log entry 11), and that 0x8128 is refused is its decision D19 (log entry 23). -/
def Obligations.WordsOfTheOpcodeTable : Prop :=
  decode 0x00E0 = .ok .cls ∧ decode 0x00EE = .ok .ret ∧ decode 0x1204 = .ok (.jp 0x204) ∧
  decode 0x8126 = .ok (.shr 1 2) ∧ decode 0x812E = .ok (.shl 1 2) ∧ decode 0xC30F = .ok (.rnd 3 0x0F) ∧
  decode 0xDAB2 = .ok (.drw 10 11 2) ∧ decode 0xE09E = .ok (.skp 0) ∧ decode 0xF30A = .ok (.ldVxK 3) ∧
  decode 0xF033 = .ok (.ldB 0) ∧ decode 0xF265 = .ok (.loadRegs 2) ∧ decode 0x8128 = .error (.unrecognized 0x8128)

/-- The source line of every instruction stands for that instruction, and SHR and SHL without Vy assemble y = 0
(30_encoding.md section 5; the spelling is PRESUMED, log entry 30). -/
def Obligations.AssemblyRoundTrip : Prop :=
  (∀ i : Instr, i.toAsm.check = .ok i) ∧
  ∀ x : Reg, AsmLine.check ⟨.shr, [.v x]⟩ = .ok (.shr x 0) ∧ AsmLine.check ⟨.shl, [.v x]⟩ = .ok (.shl x 0)

/-! Memory -/

/-- (R52, R61) A write to any address of the memory succeeds, is what that address then reads as, and changes no other
byte; a write outside it raises, as a read does. -/
def Obligations.MemoryWriteThenRead : Prop :=
  ∀ (s : State) (a : Nat) (b : Byte),
    (a < 4096 → ∃ t, s.memWrite a b = .ok t ∧ t.memRead a = .ok b ∧ Frame [] [] (fun c => c = a) s t) ∧
    (4096 ≤ a → s.memWrite a b = .error (.outOfRangeMem a) ∧ s.memRead a = .error (.outOfRangeMem a))

/-- (R54) Fetch composes two bytes big-endian, checks both addresses, and reports the lower one first. -/
def Obligations.FetchIsBigEndian : Prop :=
  ∀ (s : State) (a : Nat),
    (a + 1 < 4096 → ∃ high low w, s.memRead a = .ok high ∧ s.memRead (a + 1) = .ok low ∧ s.fetch a = .ok w ∧
      w.toNat = high.toNat * 256 + low.toNat) ∧
    (a + 1 = 4096 → s.fetch a = .error (.outOfRangeMem (a + 1))) ∧
    (4096 ≤ a → s.fetch a = .error (.outOfRangeMem a))

/-- A store by LD [I], Vx over two bytes is the word fetched there afterwards: fetch is coherent with stores
(20_memory.md section 5, 70_reset_and_hazards.md section 2). -/
def Obligations.StoredBytesAreFetched : Prop :=
  ∀ (x : Reg) (s : State), 1 ≤ x.val → s.i.toNat + x.val < 4096 →
    ∃ t, exec (.storeRegs x) s = .next t ∧ t.fetch s.i.toNat = .ok (wordOfBytes (s.getV 0) (s.getV 1))

/-- Every step keeps memory in its canonical form, also the step that faults. -/
def Obligations.StepKeepsMemoryCanonical : Prop :=
  ∀ s : State, s.mem.wf →
    (∀ t, step s = .next t → t.mem.wf) ∧ ∀ r t, step s = .fault (.raised r t) → t.mem.wf

/-- Every step keeps PC and the saved return addresses within the bounds of 40_control.md section 1, so that PC + 2
never leaves 16 bits (a derived remark of the spec). -/
def Obligations.StepKeepsCodeBounds : Prop :=
  ∀ s t : State, s.CodeBounded → step s = .next t → t.CodeBounded ∧ t.nextFetch < 65536

/-- The reset state meets the invariants. -/
def Obligations.ResetMeetsInvariants : Prop :=
  State.reset.mem.wf ∧ State.reset.CodeBounded ∧ State.reset.run = .running

/-! The step -/

/-- When the word at the next fetch address decodes to an instruction, a step of a running machine is that instruction
executed on the state that the first two phases leave (40_control.md section 1). -/
def Obligations.StepRunsTheDecodedInstruction : Prop :=
  ∀ (s : State) (w : Word) (i : Instr), s.run = .running → s.fetch s.nextFetch = .ok w → decode w = .ok i →
    step s = exec i s.enter

/-- What the first two phases leave (40_control.md section 1, 43_keys_timers.md section 3): the timers are ticked by the
sampled amounts and stop at 0 (D13), PC is the next fetch address, the flag is clear, and nothing else changes. The
sample is the oldest scheduled input, or else a free one (the model's own, log entry 3). -/
def Obligations.EnterTicksAndAdvances : Prop :=
  ∀ s : State,
    s.enter.dt.toNat = s.dt.toNat - min s.dt.toNat s.enter.inp.dDT ∧
    s.enter.st.toNat = s.st.toNat - min s.st.toNat s.enter.inp.dST ∧
    s.enter.advSuppress = false ∧
    (s.nextFetch < 65536 → s.enter.pc.toNat = s.nextFetch) ∧
    s.nextFetch = (if s.advSuppress = true then s.pc.toNat else s.pc.toNat + 2) ∧
    (∀ e es, s.inputs = e :: es → s.enter.inp = e ∧ s.enter.inputs = es ∧ s.enter.draws = s.draws) ∧
    (s.inputs = [] → s.enter.inp = Config.freeInput s.draws ∧ s.enter.inputs = [] ∧ s.enter.draws = s.draws + 1) ∧
    (∀ r, s.enter.getV r = s.getV r) ∧ s.enter.i = s.i ∧ s.enter.stack = s.stack ∧ s.enter.sp = s.sp ∧
    s.enter.fb = s.fb ∧ (∀ a, s.enter.memRead a = s.memRead a) ∧ s.enter.run = s.run ∧ s.enter.switches = s.switches

/-- An Unrecognized word raises UnrecognizedInstruction with the word recorded, and ends the run: it is never a no-op
(R203). That the effects of phases 1 and 2 stand, and pc = A, are of 40_control.md section 1 and 60_exceptions.md section 1
(the spec's decision D22, log entry 24). -/
def Obligations.UnrecognizedWordFaults : Prop :=
  ∀ (s : State) (w : Word), s.run = .running → s.fetch s.nextFetch = .ok w → (∃ e, decode w = .error e) →
    ∃ r t, step s = .fault (.raised r t) ∧ r.kind = .unrecognizedInstruction w ∧ r.pc.toNat = s.nextFetch ∧
      t = s.enter.setRun (.faulted r) ∧ ∀ u, step t ≠ .next u

/-- A fetch outside the memory raises OutOfRange of the lower failing address, after the tick and the advance,
which stand (60_exceptions.md section 1, 40_control.md section 1; the spec's decision D22, log entry 24). -/
def Obligations.FetchOutOfRangeFaults : Prop :=
  ∀ s : State, s.run = .running →
    (4096 ≤ s.nextFetch → ∃ r t, step s = .fault (.raised r t) ∧ r.kind = .outOfRangeMem s.nextFetch ∧
      r.pc = s.enter.pc ∧ t = s.enter.setRun (.faulted r)) ∧
    (s.nextFetch = 4095 → ∃ r t, step s = .fault (.raised r t) ∧ r.kind = .outOfRangeMem 4096 ∧
      r.pc = s.enter.pc ∧ t = s.enter.setRun (.faulted r))

/-- A fault is terminal and its record is kept: a state left by a raise is Faulted with the record, pc is the PC of that
state, and no step follows; a step that completes leaves the machine running; and no step, completed or faulted, changes the
switches, which are configuration (60_exceptions.md section 1, 10_state.md section 8). That a missing step answers noStep is the model's form (log entry 2). -/
def Obligations.RunStatusOfEveryStep : Prop :=
  ∀ s : State,
    (∀ r t, step s = .fault (.raised r t) →
      s.run = .running ∧ t.run = .faulted r ∧ r.pc = t.pc ∧ t.switches = s.switches ∧ step t = .fault (.noStep r)) ∧
    (∀ t, step s = .next t → s.run = .running ∧ t.run = .running ∧ t.switches = s.switches) ∧
    ∀ r, s.run = .faulted r → step s = .fault (.noStep r)

/-- Which faults an instruction can raise, with which info, and always with pc = A (60_exceptions.md section 1): no
instruction raises any other, and none raises OutOfRange(fb). -/
def Obligations.FaultsOfEveryInstruction : Prop :=
  ∀ (i : Instr) (s : State) (f : Fault), exec i s = .fault f →
    ∃ k t, f = .raised ⟨k, s.pc⟩ t ∧
      ((k = .stackOverflow ∧ (∃ nnn, i = .call nnn) ∧ s.spValue = 15) ∨
       (k = .stackUnderflow ∧ i = .ret ∧ s.spValue = -1) ∨
       ∃ a, k = .outOfRangeMem a ∧ 4096 ≤ a ∧ s.i.toNat ≤ a ∧
         ((∃ x y n, i = .drw x y n ∧ a < s.i.toNat + n.toNat) ∨
          (∃ x, i = .ldB x ∧ a < s.i.toNat + 3) ∨
          (∃ x, i = .storeRegs x ∧ a ≤ s.i.toNat + x.val) ∨
          (∃ x, i = .loadRegs x ∧ a ≤ s.i.toNat + x.val)))

/-- No instruction and no step is refused: every row of the table has its meaning (30_encoding.md sections 3 and 4). -/
def Obligations.NothingIsRefused : Prop :=
  ∀ (s : State) (x : Refusal), step s ≠ .refused x ∧ ∀ i, exec i s ≠ .refused x

/-! Which instructions write which state -/

/-- Only LD I, ADD I and LD F change I (10_state.md section 2). -/
def Obligations.OnlyThreeInstructionsWriteI : Prop :=
  ∀ (i : Instr) (s t : State), exec i s = .next t → t.i ≠ s.i →
    (∃ nnn, i = .ldI nnn) ∨ (∃ x, i = .addI x) ∨ ∃ x, i = .ldF x

/-- Only CALL and RET change the stack or SP (10_state.md section 4). -/
def Obligations.OnlyCallAndRetUseTheStack : Prop :=
  ∀ (i : Instr) (s t : State), exec i s = .next t → (t.stack ≠ s.stack ∨ t.sp ≠ s.sp) →
    (∃ nnn, i = .call nnn) ∨ i = .ret

/-- The framebuffer is changed only by the draw and the clear instruction (10_state.md section 6). -/
def Obligations.OnlyClearAndDrawChangeTheScreen : Prop :=
  ∀ (i : Instr) (s t : State), exec i s = .next t → t.fb ≠ s.fb →
    i = .cls ∨ ∃ x y n, i = .drw x y n

/-- No instruction but its own write changes a timer, and neither write touches the other timer (10_state.md section 5,
43_keys_timers.md section 3). -/
def Obligations.OnlyTimerWritesChangeTimers : Prop :=
  ∀ (i : Instr) (s t : State), exec i s = .next t →
    (t.dt ≠ s.dt → ∃ x, i = .ldDTVx x) ∧ (t.st ≠ s.st → ∃ x, i = .ldSTVx x)

/-- Only LD B and LD [I], Vx change memory, and only the 3 or x + 1 bytes from I on, whether they complete or fault
(20_memory.md sections 1 and 2). -/
def Obligations.OnlyTwoInstructionsWriteMemory : Prop :=
  ∀ (i : Instr) (s t : State), (exec i s = .next t ∨ ∃ r, exec i s = .fault (.raised r t)) →
    ∀ a, t.memRead a ≠ s.memRead a →
      (∃ x, i = .ldB x ∧ cellsFrom s.i.toNat 3 a) ∨ (∃ x, i = .storeRegs x ∧ cellsFrom s.i.toNat (x.val + 1) a)

/-- Only the control transfers of 40_control.md section 1 change PC or the flag, and a transfer sets the flag. -/
def Obligations.OnlyTransfersChangeControl : Prop :=
  ∀ (i : Instr) (s t : State), exec i s = .next t → (t.pc ≠ s.pc ∨ t.advSuppress ≠ s.advSuppress) →
    mayTransfer i = true ∧ t.advSuppress = true

/-- The `writes` column of 10_state.md section 1: no instruction writes any other general register, VF included. -/
def Obligations.OnlyDestinationsAreWritten : Prop :=
  ∀ (i : Instr) (s t : State), exec i s = .next t → ∀ r, t.getV r ≠ s.getV r → r ∈ destinations i

/-- The step inputs reach phase 4 only as the key of SKP, SKNP and LD Vx, K and the random byte of RND (10_state.md
section 10): with any other inputs, the outcome is the same but for the input field itself. -/
def Obligations.InputsReachOnlyTheirInstructions : Prop :=
  ∀ (i : Instr) (s : State) (e : StepInput),
    (readsKey i = true → e.key = s.inp.key) → (readsRandom i = true → e.rnd = s.inp.rnd) →
    exec i { s with inp := e } = withInput e (exec i s)

/-! Control transfer -/

/-- JP nnn (40_control.md section 3): PC is nnn, the next fetch is there, and a target of 0xFFF makes that fetch raise
OutOfRange(mem, 0x1000). -/
def Obligations.JumpGoesToItsTarget : Prop :=
  ∀ (nnn : Addr12) (s : State),
    ∃ t, exec (.jp nnn) s = .next t ∧ t.pc.toNat = nnn.toNat ∧ t.advSuppress = true ∧ t.nextFetch = nnn.toNat ∧
      Frame [] [.control] noCells s t ∧
      (nnn = 0xFFF → s.run = .running → ∃ r u, step t = .fault (.raised r u) ∧ r.kind = .outOfRangeMem 0x1000)

/-- JP V0, nnn (40_control.md section 3): PC is the exact sum of nnn and V0, not masked to 12 bits, and a sum of 4095 or more makes the
next fetch raise OutOfRange. -/
def Obligations.IndexedJumpAddsV0 : Prop :=
  ∀ (nnn : Addr12) (s : State),
    ∃ t, exec (.jpV0 nnn) s = .next t ∧ t.pc.toNat = nnn.toNat + (s.getV 0).toNat ∧ t.advSuppress = true ∧
      Frame [] [.control] noCells s t ∧
      (4095 ≤ nnn.toNat + (s.getV 0).toNat → s.run = .running →
        ∃ r u, step t = .fault (.raised r u) ∧ r.kind = .outOfRangeMem (max 4096 (nnn.toNat + (s.getV 0).toNat)))

/-- CALL nnn: with a free slot it pushes A + 2 (D4, log entry 16), raises SP by one and jumps; with SP = 15 it raises
StackOverflow and changes nothing (D5, log entry 17) (40_control.md section 3, 10_state.md section 4). -/
def Obligations.CallPushesTheReturnAddress : Prop :=
  ∀ (nnn : Addr12) (s : State),
    (∀ k : Fin 16, (k.val : Int) = s.spValue + 1 →
      ∃ t, exec (.call nnn) s = .next t ∧ t.spValue = s.spValue + 1 ∧ t.stack[k] = s.pc + 2 ∧
        (∀ j : Fin 16, j ≠ k → t.stack[j] = s.stack[j]) ∧ t.pc.toNat = nnn.toNat ∧ t.advSuppress = true ∧
        Frame [] [.control, .stack] noCells s t) ∧
    (s.spValue = 15 →
      exec (.call nnn) s = .fault (.raised ⟨.stackOverflow, s.pc⟩ (s.setRun (.faulted ⟨.stackOverflow, s.pc⟩))))

/-- RET: with a frame it jumps to the top slot and lowers SP by one, leaving the slots as they are; with SP = -1 it
raises StackUnderflow and changes nothing (D5, log entry 17) (40_control.md section 3, 10_state.md section 4). -/
def Obligations.RetPopsTheReturnAddress : Prop :=
  ∀ s : State,
    (∀ k : Fin 16, (k.val : Int) = s.spValue →
      ∃ t, exec .ret s = .next t ∧ t.spValue = s.spValue - 1 ∧ t.stack = s.stack ∧ t.pc = s.stack[k] ∧
        t.advSuppress = true ∧ Frame [] [.control, .stack] noCells s t) ∧
    (s.spValue = -1 →
      exec .ret s = .fault (.raised ⟨.stackUnderflow, s.pc⟩ (s.setRun (.faulted ⟨.stackUnderflow, s.pc⟩))))

/-- CALL, and then RET from any state with the stack as the CALL left it, goes back to the instruction after the CALL,
with SP as before the CALL (95_test_vectors.md S9; D4, log entry 16). -/
def Obligations.CallThenRetReturns : Prop :=
  ∀ (nnn : Addr12) (s t u : State), s.pc.toNat ≤ 4094 → exec (.call nnn) s = .next t → u.stack = t.stack → u.sp = t.sp →
    ∃ r, exec .ret u = .next r ∧ r.nextFetch = s.pc.toNat + 2 ∧ r.sp = s.sp

/-- The four compare-and-skip instructions (40_control.md section 3). Where a taken skip leaves PC is the spec's
decision D3 (log entry 15). -/
def Obligations.CompareSkips : Prop :=
  ∀ (x y : Reg) (kk : Byte) (s : State),
    SkipsWhen (exec (.seImm x kk) s) s (s.getV x = kk) ∧
    SkipsWhen (exec (.sneImm x kk) s) s (s.getV x ≠ kk) ∧
    SkipsWhen (exec (.seReg x y) s) s (s.getV x = s.getV y) ∧
    SkipsWhen (exec (.sneReg x y) s) s (s.getV x ≠ s.getV y)

/-- SKP and SKNP (43_keys_timers.md section 1): one key or none is pressed, and none equals no register value (the
spec's decision D14, log entry 20; the skip itself D3, log entry 15). -/
def Obligations.KeySkips : Prop :=
  ∀ (x : Reg) (s : State),
    SkipsWhen (exec (.skp x) s) s (∃ k, s.inp.key = some k ∧ (s.getV x).toNat = k.val) ∧
    SkipsWhen (exec (.sknp x) s) s (s.inp.key = none ∨ ∃ k, s.inp.key = some k ∧ (s.getV x).toNat ≠ k.val)

/-! The ALU -/

/-- LD Vx, kk and ADD Vx, kk: the sum wraps at 8 bits and no flag is touched (41_alu.md section 2). -/
def Obligations.LoadAndAddImmediate : Prop :=
  ∀ (x : Reg) (kk : Byte) (s : State),
    (∃ t, exec (.ldImm x kk) s = .next t ∧ t.getV x = kk ∧ Frame [x] [] noCells s t) ∧
    ∃ t, exec (.addImm x kk) s = .next t ∧ (t.getV x).toNat = ((s.getV x).toNat + kk.toNat) % 256 ∧
      Frame [x] [] noCells s t

/-- LD Vx, Vy, OR, AND and XOR, bit by bit; VF is unchanged unless x = F (the spec's decision D9, log entry 19)
(41_alu.md section 3). -/
def Obligations.CopyAndLogicLeaveTheFlag : Prop :=
  ∀ (x y : Reg) (s : State),
    (∃ t, exec (.ldReg x y) s = .next t ∧ t.getV x = s.getV y ∧ Frame [x] [] noCells s t) ∧
    (∃ t, exec (.or x y) s = .next t ∧ Frame [x] [] noCells s t ∧
      ∀ b < 8, (t.getV x).getLsbD b = ((s.getV x).getLsbD b || (s.getV y).getLsbD b)) ∧
    (∃ t, exec (.and x y) s = .next t ∧ Frame [x] [] noCells s t ∧
      ∀ b < 8, (t.getV x).getLsbD b = ((s.getV x).getLsbD b && (s.getV y).getLsbD b)) ∧
    ∃ t, exec (.xor x y) s = .next t ∧ Frame [x] [] noCells s t ∧
      ∀ b < 8, (t.getV x).getLsbD b = ((s.getV x).getLsbD b ^^ (s.getV y).getLsbD b)

/-- ADD Vx, Vy: the sum mod 256, and VF = 1 exactly when the sum is above 255. With x = F the flag stays (the spec's
decision D8, log entry 18) (41_alu.md section 3). -/
def Obligations.AddWritesTheCarry : Prop :=
  ∀ (x y : Reg) (s : State),
    ∃ t, exec (.addReg x y) s = .next t ∧
      (x ≠ 15 → (t.getV x).toNat = ((s.getV x).toNat + (s.getV y).toNat) % 256) ∧
      (t.getV 15).toNat = (if 255 < (s.getV x).toNat + (s.getV y).toNat then 1 else 0) ∧
      Frame [x, 15] [] noCells s t

/-- SUB and SUBN: the difference mod 256, and VF = 1 exactly when no borrow is needed. With x = F the flag stays (the
spec's decision D8, log entry 18) (41_alu.md section 3). -/
def Obligations.SubtractionsWriteNoBorrow : Prop :=
  ∀ (x y : Reg) (s : State),
    (∃ t, exec (.sub x y) s = .next t ∧
      (x ≠ 15 → ((t.getV x).toNat : Int) = ((s.getV x).toNat - (s.getV y).toNat : Int) % 256) ∧
      (t.getV 15).toNat = (if (s.getV y).toNat ≤ (s.getV x).toNat then 1 else 0) ∧
      Frame [x, 15] [] noCells s t) ∧
    ∃ t, exec (.subn x y) s = .next t ∧
      (x ≠ 15 → ((t.getV x).toNat : Int) = ((s.getV y).toNat - (s.getV x).toNat : Int) % 256) ∧
      (t.getV 15).toNat = (if (s.getV x).toNat ≤ (s.getV y).toNat then 1 else 0) ∧
      Frame [x, 15] [] noCells s t

/-- SHR under either value of the run's `SHIFT_READS_VY`: half of the source, and VF = the bit shifted out. The source is
Vx by default and Vy under the switch (the spec's decisions D6 and D30, log entry 9). With x = F the flag stays (D8, log
entry 18) (41_alu.md section 3). -/
def Obligations.ShiftRightHalves : Prop :=
  ∀ (x y : Reg) (s : State) (src : Byte), src = s.getV (if s.switches.shiftReadsVy = true then y else x) →
    ∃ t, exec (.shr x y) s = .next t ∧ (x ≠ 15 → (t.getV x).toNat = src.toNat / 2) ∧
      (t.getV 15).toNat = src.toNat % 2 ∧ Frame [x, 15] [] noCells s t

/-- SHL under every value of the run's `SHIFT_READS_VY` and `SHL_FLAG_XOR`: twice the source mod 256, and VF = the bit
shifted out, or, under `SHL_FLAG_XOR`, that bit added mod 2 to the low bit of VF as it stands after the result write, VF's
other bits staying. The source and the flag's form are the spec's decisions D6, D7 and D30 (log entries 9 and 10). With
x = F the flag write comes last (D8, log entry 18) (41_alu.md section 3). -/
def Obligations.ShiftLeftDoubles : Prop :=
  ∀ (x y : Reg) (s : State) (src : Byte), src = s.getV (if s.switches.shiftReadsVy = true then y else x) →
    ∃ t, exec (.shl x y) s = .next t ∧ (x ≠ 15 → (t.getV x).toNat = src.toNat * 2 % 256) ∧
      (s.switches.shlFlagXor = false → (t.getV 15).toNat = src.toNat / 128) ∧
      (s.switches.shlFlagXor = true → x ≠ 15 → t.getV 15 = s.getV 15 ^^^ BitVec.ofNat 8 (src.toNat / 128)) ∧
      (s.switches.shlFlagXor = true → x = 15 → (t.getV 15).toNat = src.toNat * 2 % 256 + src.toNat / 128) ∧
      Frame [x, 15] [] noCells s t

/-- RND Vx, kk: the step's random byte under the mask, whatever the byte is (the spec's decision D24, log entry 3)
(41_alu.md section 4). -/
def Obligations.RandomByteIsMasked : Prop :=
  ∀ (x : Reg) (kk : Byte) (s : State),
    ∃ t, exec (.rnd x kk) s = .next t ∧ Frame [x] [] noCells s t ∧
      (∀ b < 8, (t.getV x).getLsbD b = (s.inp.rnd.getLsbD b && kk.getLsbD b)) ∧
      (kk = 0 → t.getV x = 0) ∧ (kk = 0xFF → t.getV x = s.inp.rnd)

/-! The display -/

/-- (R141) CLS turns every pixel off and changes nothing else (42_display.md section 2). -/
def Obligations.ClearScreen : Prop :=
  ∀ s : State, ∃ t, exec .cls s = .next t ∧ (∀ x y, pixel t.fb x y = false) ∧ Frame [] [.screen] noCells s t

/-- DRW with every sprite byte in range: each pixel is the old one exclusive-or the wrapped sprite mask, and VF is 1
exactly when the mask and the old screen share a set pixel (42_display.md sections 1 and 2, a derived law of the
spec). With x = F or y = F the coordinate is VF before the write. -/
def Obligations.DrawTogglesTheWrappedSprite : Prop :=
  ∀ (x y : Reg) (n : Nibble) (s : State) (row : Nat → Byte),
    (∀ r < n.toNat, s.memRead (s.i.toNat + r) = .ok (row r)) →
    ∃ t, exec (.drw x y n) s = .next t ∧ Frame [15] [.screen] noCells s t ∧
      (∀ px py, pixel t.fb px py = true ↔
        (pixel s.fb px py = true ∧ ¬ spriteMask row n.toNat (s.getV x).toNat (s.getV y).toNat px py) ∨
        (pixel s.fb px py = false ∧ spriteMask row n.toNat (s.getV x).toNat (s.getV y).toNat px py)) ∧
      ((∃ px py, pixel s.fb px py = true ∧ spriteMask row n.toNat (s.getV x).toNat (s.getV y).toNat px py) →
        t.getV 15 = 1) ∧
      ((∀ px py, pixel s.fb px py = true → ¬ spriteMask row n.toNat (s.getV x).toNat (s.getV y).toNat px py) →
        t.getV 15 = 0)

/-- Drawing the same sprite twice at the same origin restores every pixel; from a cleared screen the first draw reports
no collision, and the second reports one if the first set any pixel (95_test_vectors.md S6). The premises say that the
first draw's flag did not move the origin, which can happen only with x = F or y = F. -/
def Obligations.DrawTwiceRestoresTheScreen : Prop :=
  ∀ (x y : Reg) (n : Nibble) (s t : State), exec (.drw x y n) s = .next t →
    t.getV x = s.getV x → t.getV y = s.getV y →
    ∃ u, exec (.drw x y n) t = .next u ∧ u.fb = s.fb ∧
      (s.fb = Config.blankScreen →
        t.getV 15 = 0 ∧ ((∃ px py, pixel t.fb px py = true) → u.getV 15 = 1))

/-- DRW with a sprite byte out of range raises OutOfRange of the first such address, and neither the screen nor VF nor
anything else has changed (the spec's decision D27, log entry 24) (42_display.md section 2). -/
def Obligations.DrawOutOfRangeChangesNothing : Prop :=
  ∀ (x y : Reg) (n : Nibble) (s : State) (r : Nat), r < n.toNat → (∀ j < r, s.i.toNat + j < 4096) →
    4096 ≤ s.i.toNat + r →
    exec (.drw x y n) s =
      .fault (.raised ⟨.outOfRangeMem (s.i.toNat + r), s.pc⟩
        (s.setRun (.faulted ⟨.outOfRangeMem (s.i.toNat + r), s.pc⟩)))

/-- The pixel accessors: in range, FbGet returns the pixel, FbSet sets it and changes no other; out of range, including
negative coordinates, both raise OutOfRange(fb, x, y) (42_display.md section 1). A display poll in range answers the pixel,
and one out of range ends a run that is running (the spec's decision D28, log entry 25). That the poll of an already
Faulted run answers in the same way and leaves the record it keeps is the model's choice (log entry 32). -/
def Obligations.PixelAccessors : Prop :=
  ∀ (s : State) (x y : Int) (b : Bool),
    (0 ≤ x → x < 64 → 0 ≤ y → y < 32 →
      (∃ (px : Fin 64) (py : Fin 32), (px.val : Int) = x ∧ (py.val : Int) = y ∧
        s.fbGet x y = .ok (pixel s.fb px py) ∧ displayPoll x y s = .ok (pixel s.fb px py)) ∧
      ∃ t, s.fbSet x y b = .ok t ∧ t.fbGet x y = .ok b ∧ Frame [] [.screen] noCells s t ∧
        ∀ x' y', (x' ≠ x ∨ y' ≠ y) → t.fbGet x' y' = s.fbGet x' y') ∧
    ((x < 0 ∨ 64 ≤ x ∨ y < 0 ∨ 32 ≤ y) → ∀ f : FaultRecord, f = ⟨.outOfRangeFb x y, s.pc⟩ →
      s.fbGet x y = .error (.outOfRangeFb x y) ∧ s.fbSet x y b = .error (.outOfRangeFb x y) ∧
      (s.run = .running → displayPoll x y s = .error (.raised f (s.setRun (.faulted f)))) ∧
      ∀ r, s.run = .faulted r → displayPoll x y s = .error (.raised f s))

/-! Keys and timers -/

/-- LD Vx, K: with no key it arranges to run again and changes nothing else; with a key it stores the code, and the next
fetch is at A + 2, phase 2 having cleared the flag (43_keys_timers.md section 1; the spec's decision D15, log entry 20). -/
def Obligations.KeyWait : Prop :=
  ∀ (x : Reg) (s : State),
    (s.inp.key = none → ∃ t, exec (.ldVxK x) s = .next t ∧ t.pc = s.pc ∧ t.advSuppress = true ∧
      t.nextFetch = s.pc.toNat ∧ Frame [] [.control] noCells s t) ∧
    ∀ k, s.inp.key = some k → ∃ t, exec (.ldVxK x) s = .next t ∧ (t.getV x).toNat = k.val ∧
      (s.advSuppress = false → t.nextFetch = s.pc.toNat + 2) ∧ Frame [x] [] noCells s t

/-- A step that waits for a key leaves the same instruction to be fetched next and every register, byte and pixel as it
was, and the timers keep ticking (43_keys_timers.md section 1, 60_exceptions.md section 5). -/
def Obligations.WaitingStepRepeats : Prop :=
  ∀ (s : State) (w : Word) (x : Reg), s.run = .running → s.fetch s.nextFetch = .ok w → decode w = .ok (.ldVxK x) →
    s.nextInput.key = none →
    ∃ t, step s = .next t ∧ t.nextFetch = s.nextFetch ∧ t.fetch t.nextFetch = .ok w ∧
      t.dt.toNat = s.dt.toNat - min s.dt.toNat s.nextInput.dDT ∧
      t.st.toNat = s.st.toNat - min s.st.toNat s.nextInput.dST ∧
      (∀ r, t.getV r = s.getV r) ∧ t.i = s.i ∧ t.stack = s.stack ∧ t.sp = s.sp ∧ t.fb = s.fb ∧ t.mem = s.mem ∧
      t.run = .running

/-- LD Vx, DT, LD DT, Vx and LD ST, Vx (43_keys_timers.md section 2). -/
def Obligations.TimerAccess : Prop :=
  ∀ (x : Reg) (s : State),
    (∃ t, exec (.ldVxDT x) s = .next t ∧ t.getV x = s.dt ∧ Frame [x] [] noCells s t) ∧
    (∃ t, exec (.ldDTVx x) s = .next t ∧ t.dt = s.getV x ∧ Frame [] [.delay] noCells s t) ∧
    ∃ t, exec (.ldSTVx x) s = .next t ∧ t.st = s.getV x ∧ Frame [] [.sound] noCells s t

/-! The index register and memory transfers -/

/-- (R184) LD F, Vx, the words `Fx29`: I is exactly five times the register's value, which is not reduced to its low
nibble. -/
def Obligations.GlyphAddressIsFiveTimes : Prop :=
  ∀ (x : Reg) (s : State),
    decode (BitVec.ofNat 16 (0xF029 + 0x100 * x.val)) = .ok (.ldF x) ∧
    ∃ t, exec (.ldF x) s = .next t ∧ t.i.toNat = 5 * (s.getV x).toNat ∧ Frame [] [.index] noCells s t

/-- LD I, nnn and ADD I, Vx: the sum wraps at 16 bits and VF is unchanged (the spec's decision D17, log entry 22)
(44_index_memory.md section 1). -/
def Obligations.IndexLoadAndAdd : Prop :=
  (∀ (nnn : Addr12) (s : State),
    ∃ t, exec (.ldI nnn) s = .next t ∧ t.i.toNat = nnn.toNat ∧ Frame [] [.index] noCells s t) ∧
  ∀ (x : Reg) (s : State),
    ∃ t, exec (.addI x) s = .next t ∧ t.i.toNat = (s.i.toNat + (s.getV x).toNat) % 65536 ∧
      Frame [] [.index] noCells s t

/-- LD B, Vx with its three bytes in range: three decimal digits, hundreds first, that make up the register's value
(44_index_memory.md section 3). -/
def Obligations.BcdStoresTheDigits : Prop :=
  ∀ (x : Reg) (s : State), s.i.toNat + 2 < 4096 →
    ∃ t h d u, exec (.ldB x) s = .next t ∧ t.memRead s.i.toNat = .ok h ∧ t.memRead (s.i.toNat + 1) = .ok d ∧
      t.memRead (s.i.toNat + 2) = .ok u ∧ d.toNat ≤ 9 ∧ u.toNat ≤ 9 ∧
      h.toNat * 100 + d.toNat * 10 + u.toNat = (s.getV x).toNat ∧ Frame [] [] (cellsFrom s.i.toNat 3) s t

/-- LD [I], Vx with its bytes in range: byte I + r is Vr for every r up to x, no other byte changes, and I is unchanged
(the spec's decision D18, log entry 22) (44_index_memory.md section 4). -/
def Obligations.BlockStore : Prop :=
  ∀ (x : Reg) (s : State), s.i.toNat + x.val < 4096 →
    ∃ t, exec (.storeRegs x) s = .next t ∧
      (∀ r : Reg, r.val ≤ x.val → t.memRead (s.i.toNat + r.val) = .ok (s.getV r)) ∧
      Frame [] [] (cellsFrom s.i.toNat (x.val + 1)) s t

/-- LD Vx, [I] with its bytes in range: Vr is byte I + r for every r up to x, no other register changes, and I is
unchanged (the spec's decision D18, log entry 22) (44_index_memory.md section 4). -/
def Obligations.BlockLoad : Prop :=
  ∀ (x : Reg) (s : State), s.i.toNat + x.val < 4096 →
    ∃ t, exec (.loadRegs x) s = .next t ∧
      (∀ r : Reg, r.val ≤ x.val → s.memRead (s.i.toNat + r.val) = .ok (t.getV r)) ∧
      Frame (lowRegs x) [] noCells s t

/-- A block transfer or a BCD store whose byte I + k is the first out of range raises OutOfRange of that address; the
k transfers before it stand and nothing else has changed (44_index_memory.md sections 3 and 4, 60_exceptions.md
section 1; the spec's decision D22, log entry 24). -/
def Obligations.TransferFaultsKeepEarlierBytes : Prop :=
  ∀ (x : Reg) (s : State) (k : Nat), (∀ j < k, s.i.toNat + j < 4096) → 4096 ≤ s.i.toNat + k →
    ∀ f : FaultRecord, f = ⟨.outOfRangeMem (s.i.toNat + k), s.pc⟩ →
    (k < 3 → ∃ t, exec (.ldB x) s = .fault (.raised f t) ∧ t.run = .faulted f ∧
      (∀ j < k, t.memRead (s.i.toNat + j) = .ok (digit (s.getV x) (3 - j))) ∧
      Frame [] [] (cellsFrom s.i.toNat k) s (t.setRun s.run)) ∧
    (k ≤ x.val → ∃ t, exec (.storeRegs x) s = .fault (.raised f t) ∧ t.run = .faulted f ∧
      (∀ r : Reg, r.val < k → t.memRead (s.i.toNat + r.val) = .ok (s.getV r)) ∧
      Frame [] [] (cellsFrom s.i.toNat k) s (t.setRun s.run)) ∧
    (k ≤ x.val → ∃ t, exec (.loadRegs x) s = .fault (.raised f t) ∧ t.run = .faulted f ∧
      (∀ r : Reg, r.val < k → s.memRead (s.i.toNat + r.val) = .ok (t.getV r)) ∧
      (∀ r : Reg, k ≤ r.val → t.getV r = s.getV r) ∧ Frame (lowRegs x) [] noCells s (t.setRun s.run))

/-! Reset, boot, and the end of a run -/

/-- (R37) After construction with any launch parameters and an image that fits: PC = 512, SP = -1, the font at 0 to 79,
the image from 512 on, and running. -/
def Obligations.BootPlacesFontAndImage : Prop :=
  ∀ (p : Config.Launch) (image : List Byte), image.length ≤ 3584 →
    ∃ t, boot p image = .next t ∧ t.pc.toNat = 512 ∧ t.spValue = -1 ∧ t.run = .running ∧
      (∀ a (h : a < 80), t.memRead a = .ok p.font[a]) ∧
      ∀ k (h : k < image.length), t.memRead (512 + k) = .ok image[k]

/-- After construction and image load, for any launch parameters, V, I, DT, ST, the screen and the switches are as
launched, the first fetch is at 0x200 (the spec's decision D2, log entry 14), and each byte of 80 to 4095 outside the image
is as `INIT_MEM` has it (10_state.md section 9, 70_reset_and_hazards.md section 1). That `INIT_MEM` is a list of pairs, of
which the last for an address counts, over a default of 0, is the model's form (log entry 6). -/
def Obligations.LaunchParametersTakeEffect : Prop :=
  ∀ (p : Config.Launch) (image : List Byte), image.length ≤ 3584 →
    ∃ t, boot p image = .next t ∧ (∀ r : Reg, t.getV r = p.initV[r]) ∧ t.i = p.initI ∧ t.dt = p.initDT ∧
      t.st = p.initST ∧ t.fb = p.initFB ∧ t.switches = p.switches ∧ t.nextFetch = 0x200 ∧
      ∀ a, 80 ≤ a → a < 4096 → (a < 512 ∨ 512 + image.length ≤ a) →
        (∀ before b after, p.initMem = before ++ (a, b) :: after → (∀ c ∈ after, c.1 ≠ a) → t.memRead a = .ok b) ∧
        ((∀ c ∈ p.initMem, c.1 ≠ a) → t.memRead a = .ok 0)

/-- (R62) loadImage writes byte k at 512 + k; an image of more than 3584 bytes stops the load with OutOfRange(mem, 4096)
after bytes 0 to 3583 have been written, and the run does not start. -/
def Obligations.ImageLoad : Prop :=
  ∀ (image : List Byte) (s : State),
    (image.length ≤ 3584 → ∃ t, loadImage image s = .next t ∧
      (∀ k (h : k < image.length), t.memRead (512 + k) = .ok image[k]) ∧
      Frame [] [] (cellsFrom 512 image.length) s t) ∧
    (3584 < image.length → ∃ r t, loadImage image s = .fault (.raised r t) ∧ r.kind = .outOfRangeMem 4096 ∧
      r.pc = 0x200 ∧ t.run = .faulted r ∧ (∀ u, step t ≠ .next u) ∧
      (∀ k (h : k < image.length), k < 3584 → t.memRead (512 + k) = .ok image[k]) ∧
      Frame [] [] (cellsFrom 512 3584) s (t.setRun s.run))

/-- The machine's reset state is the construction with the launch `clean_entry`, and meets that premise; its first fetch
is at 0x200 (the model's choice of launch: DESIGN CHOICE, log entries 4 to 7; adv_suppress = 1 at reset: the spec's
decision D2, log entry 14). -/
def Obligations.ResetIsTheCleanEntryLaunch : Prop :=
  construct Config.cleanEntry = State.reset ∧ State.reset.CleanEntry ∧ State.reset.nextFetch = 0x200

/-- A self-jump is for ever: from a state at the end of a run, any number of steps completes, is again at the end, and
changes no register, I, stack, byte, pixel or switch; the timers may only go down (70_reset_and_hazards.md section 4; the
definition is the spec's decision D26, log entry 29). -/
def Obligations.SelfJumpIsForEver : Prop :=
  ∀ (s : State), s.AtEnd → ∀ k : Nat,
    ∃ t : State, Sys2Proof.core.run k s = .next t ∧ t.AtEnd ∧ t.nextFetch = s.nextFetch ∧ t.v = s.v ∧ t.i = s.i ∧
      t.stack = s.stack ∧ t.sp = s.sp ∧ t.mem = s.mem ∧ t.fb = s.fb ∧ t.switches = s.switches ∧
      t.dt.toNat ≤ s.dt.toNat ∧ t.st.toNat ≤ s.st.toNat
end

