-- ==== Sys2Proof/Laws/Memory.lean ====
section
/-! SUPPORT. The laws of memory: what a read sees after a write, for any list of cells, and that every operation keeps the
canonical form. -/

namespace Sys2Proof.Machine

theorem Memory.read_erase_same (m : Memory) (a : Nat) : (m.erase a).read a = unlisted a := by
  induction m with
  | nil => rfl
  | cons c m ih =>
    by_cases h : c.1 = a
    · simpa [Memory.erase, h] using ih
    · simpa [Memory.erase, h, Memory.read] using ih

theorem Memory.read_erase_other (m : Memory) {a x : Nat} (h : x ≠ a) : (m.erase a).read x = m.read x := by
  induction m with
  | nil => rfl
  | cons c m ih =>
    by_cases hc : c.1 = a
    · have hx : c.1 ≠ x := fun e => h (e.symm.trans hc)
      simpa [Memory.erase, hc, Memory.read, hx, Ne.symm h] using ih
    · have he : Memory.erase (c :: m) a = c :: Memory.erase m a := by simp [Memory.erase, hc]
      rw [he, Memory.read, Memory.read, ih]

theorem Memory.read_insert_other (m : Memory) (c : Host.Cell) {x : Nat} (h : x ≠ c.1) :
    (m.insert c).read x = m.read x := by
  induction m with
  | nil => simp [Memory.insert, Memory.read, Ne.symm h]
  | cons d m ih =>
    by_cases hd : c.1 < d.1
    · simp [Memory.insert, hd, Memory.read, Ne.symm h]
    · simp [Memory.insert, hd, Memory.read, ih]

/-- An inserted cell is what its address reads as, when no other cell has that address. -/
theorem Memory.read_insert_same (m : Memory) (c : Host.Cell) (h : ∀ d ∈ m, d.1 ≠ c.1) :
    (m.insert c).read c.1 = c.2 := by
  induction m with
  | nil => simp [Memory.insert, Memory.read]
  | cons d m ih =>
    by_cases hd : c.1 < d.1
    · simp [Memory.insert, hd, Memory.read]
    · have := ih fun e he => h e (by simp [he])
      simp [Memory.insert, hd, Memory.read, h d (by simp), this]

theorem Memory.not_mem_erase (m : Memory) (a : Nat) : ∀ d ∈ m.erase a, d.1 ≠ a := by
  simp [Memory.erase]

/-- A byte reads as the value last written to it. -/
theorem Memory.read_write_same (m : Memory) (a : Nat) (b : Byte) : (m.write a b).read a = b := by
  by_cases h : b = unlisted a
  · simp [Memory.write, h, read_erase_same]
  · simpa [Memory.write, h] using read_insert_same (m.erase a) (a, b) (not_mem_erase m a)

/-- A write leaves every other byte alone. -/
theorem Memory.read_write_other (m : Memory) {a x : Nat} (b : Byte) (h : x ≠ a) :
    (m.write a b).read x = m.read x := by
  by_cases hb : b = unlisted a
  · simp [Memory.write, hb, read_erase_other m h]
  · simp [Memory.write, hb, read_insert_other (m.erase a) (a, b) h, read_erase_other m h]

theorem Memory.read_write (m : Memory) (a x : Nat) (b : Byte) :
    (m.write a b).read x = if x = a then b else m.read x := by
  by_cases h : x = a
  · subst h; simp [read_write_same]
  · simp [h, read_write_other m b h]

theorem Memory.wf_nil : Memory.wf [] := ⟨List.Pairwise.nil, fun _ h => nomatch h⟩

theorem Memory.wf_erase {m : Memory} (h : m.wf) (a : Nat) : (m.erase a).wf :=
  ⟨h.1.filter _, fun c hc => h.2 c (List.mem_of_mem_filter hc)⟩

theorem Memory.mem_insert {m : Memory} {c d : Host.Cell} : d ∈ m.insert c ↔ d = c ∨ d ∈ m := by
  induction m with
  | nil => simp [Memory.insert]
  | cons e m ih =>
    by_cases h : c.1 < e.1
    · simp [Memory.insert, h]
    · simp [Memory.insert, h, ih, or_left_comm]

theorem Memory.wf_insert {m : Memory} (h : m.wf) {a : Nat} {b : Byte} (ha : a < Config.memSize)
    (hb : b ≠ unlisted a) (hm : ∀ d ∈ m, d.1 ≠ a) : (m.insert (a, b)).wf := by
  refine ⟨?_, fun c hc => ?_⟩
  · have hs := h.1
    clear h
    induction m with
    | nil => simp [Memory.insert]
    | cons e m ih =>
      have hs' := List.pairwise_cons.1 hs
      by_cases hl : a < e.1
      · rw [Memory.insert, if_pos hl]
        refine List.pairwise_cons.2 ⟨fun d hd => ?_, hs⟩
        rcases List.mem_cons.1 hd with rfl | hd
        · exact hl
        · exact hl.trans (hs'.1 d hd)
      · rw [Memory.insert, if_neg hl]
        refine List.pairwise_cons.2 ⟨fun d hd => ?_, ih (fun d hd => hm d (by simp [hd])) hs'.2⟩
        rcases mem_insert.1 hd with rfl | hd
        · have := hm e (by simp)
          simp only
          omega
        · exact hs'.1 d hd
  · rcases mem_insert.1 hc with rfl | hc
    · exact ⟨ha, hb⟩
    · exact h.2 c hc

/-- A byte written inside the memory keeps the canonical form. -/
theorem Memory.wf_write {m : Memory} (h : m.wf) {a : Nat} (ha : a < Config.memSize) (b : Byte) : (m.write a b).wf := by
  by_cases hb : b = unlisted a
  · simpa [Memory.write, hb] using wf_erase h a
  · simpa only [Memory.write, hb, if_false] using wf_insert (wf_erase h a) ha hb (not_mem_erase m a)

/-- The bytes after a list is written: the list's own on its range, and the old ones elsewhere. -/
theorem Memory.read_writeList (bs : List Byte) (m : Memory) (a x : Nat) :
    (m.writeList a bs).read x = if h : a ≤ x ∧ x < a + bs.length then bs[x - a] else m.read x := by
  induction bs generalizing m a with
  | nil => simp [Memory.writeList, show ¬(a ≤ x ∧ x < a) by omega]
  | cons b bs ih =>
    rw [Memory.writeList, ih, read_write]
    by_cases hx : x = a
    · subst hx; simp
    · by_cases h : a + 1 ≤ x ∧ x < a + 1 + bs.length
      · have h' : a ≤ x ∧ x < a + (b :: bs).length := by simp only [List.length_cons]; omega
        obtain ⟨k, hk⟩ : ∃ k, x = a + 1 + k := ⟨x - (a + 1), by omega⟩
        subst hk
        simp only [h, h', dif_pos, and_self]
        simp [show a + 1 + k - a = k + 1 by omega]
      · have h' : ¬(a ≤ x ∧ x < a + (b :: bs).length) := by simp only [List.length_cons]; omega
        simp only [h, h', dif_neg, not_false_eq_true, hx, if_false]

theorem Memory.wf_writeList {m : Memory} (h : m.wf) {a : Nat} (bs : List Byte)
    (ha : ∀ k < bs.length, a + k < Config.memSize) : (m.writeList a bs).wf := by
  induction bs generalizing m a with
  | nil => exact h
  | cons b bs ih =>
    refine ih (wf_write h (by simpa using ha 0 (by simp)) b) fun k hk => ?_
    have := ha (k + 1) (by simpa using hk)
    omega

theorem Memory.wf_ofPairs (cs : List (Nat × Byte)) {m : Memory} (h : m.wf) : (Memory.ofPairs cs m).wf := by
  induction cs generalizing m with
  | nil => exact h
  | cons c cs ih =>
    refine ih ?_
    by_cases hc : 80 ≤ c.1 ∧ c.1 < Config.memSize
    · simpa only [hc, and_self, if_true] using wf_write h hc.2 c.2
    · simpa only [hc, if_false] using h

/-- Pairs that name no byte of the font leave it alone. -/
theorem Memory.read_ofPairs_font (cs : List (Nat × Byte)) (m : Memory) {x : Nat} (hx : x < 80) :
    (Memory.ofPairs cs m).read x = m.read x := by
  induction cs generalizing m with
  | nil => rfl
  | cons c cs ih =>
    rw [Memory.ofPairs, ih]
    split
    · exact read_write_other _ _ (by omega)
    · rfl

theorem Memory.ofPairs_append (cs ds : List (Nat × Byte)) (m : Memory) :
    Memory.ofPairs (cs ++ ds) m = Memory.ofPairs ds (Memory.ofPairs cs m) := by
  induction cs generalizing m with
  | nil => rfl
  | cons c cs ih => exact ih _

/-- An address that no pair names keeps its byte. -/
theorem Memory.read_ofPairs_unnamed (cs : List (Nat × Byte)) (m : Memory) {x : Nat} (h : ∀ c ∈ cs, c.1 ≠ x) :
    (Memory.ofPairs cs m).read x = m.read x := by
  induction cs generalizing m with
  | nil => rfl
  | cons c cs ih =>
    rw [Memory.ofPairs, ih _ fun d hd => h d (by simp [hd])]
    split
    · exact read_write_other _ _ (Ne.symm (h c (by simp)))
    · rfl

/-- An address in 80 to 4095 reads as the last pair that names it. -/
theorem Memory.read_ofPairs_last (before after : List (Nat × Byte)) (m : Memory) {x : Nat} (b : Byte) (h1 : 80 ≤ x)
    (h2 : x < Config.memSize) (h : ∀ c ∈ after, c.1 ≠ x) :
    (Memory.ofPairs (before ++ (x, b) :: after) m).read x = b := by
  rw [ofPairs_append, Memory.ofPairs, read_ofPairs_unnamed _ _ h, if_pos ⟨h1, h2⟩, read_write_same]

/-- The memory of a constructed machine is canonical, for every launch. -/
theorem construct_wf (p : Config.Launch) : (construct p).mem.wf :=
  Memory.wf_writeList (Memory.wf_ofPairs p.initMem Memory.wf_nil) p.font.toList
    (by rw [Vector.length_toList, Config.memSize]; omega)

/-- Two states with the same memory read the same bytes. -/
theorem State.memRead_congr {s t : State} (h : t.mem = s.mem) (a : Nat) : t.memRead a = s.memRead a := by
  simp [State.memRead, h]

end Sys2Proof.Machine
end

