-- ==== Sys2Proof/Laws/State.lean ====
section
/-! SUPPORT. One lemma for each field and each update of the state, true by rfl, and what the reads see through them, so
that no proof unfolds a record update. -/

namespace Sys2Proof.Machine.State

variable (s : State)

@[simp] theorem setMem_v (m : Memory) : (s.setMem m).v = s.v := rfl
@[simp] theorem setMem_i (m : Memory) : (s.setMem m).i = s.i := rfl
@[simp] theorem setMem_pc (m : Memory) : (s.setMem m).pc = s.pc := rfl
@[simp] theorem setMem_advSuppress (m : Memory) : (s.setMem m).advSuppress = s.advSuppress := rfl
@[simp] theorem setMem_stack (m : Memory) : (s.setMem m).stack = s.stack := rfl
@[simp] theorem setMem_sp (m : Memory) : (s.setMem m).sp = s.sp := rfl
@[simp] theorem setMem_dt (m : Memory) : (s.setMem m).dt = s.dt := rfl
@[simp] theorem setMem_st (m : Memory) : (s.setMem m).st = s.st := rfl
@[simp] theorem setMem_fb (m : Memory) : (s.setMem m).fb = s.fb := rfl
@[simp] theorem setMem_mem (m : Memory) : (s.setMem m).mem = m := rfl
@[simp] theorem setMem_run (m : Memory) : (s.setMem m).run = s.run := rfl
@[simp] theorem setMem_switches (m : Memory) : (s.setMem m).switches = s.switches := rfl
@[simp] theorem setMem_inp (m : Memory) : (s.setMem m).inp = s.inp := rfl
@[simp] theorem setMem_inputs (m : Memory) : (s.setMem m).inputs = s.inputs := rfl
@[simp] theorem setMem_draws (m : Memory) : (s.setMem m).draws = s.draws := rfl
@[simp] theorem setMem_getV (m : Memory) (x : Reg) : (s.setMem m).getV x = s.getV x := rfl
@[simp] theorem setMem_nextSlot (m : Memory) : (s.setMem m).nextSlot = s.nextSlot := rfl
@[simp] theorem setMem_nextFetch (m : Memory) : (s.setMem m).nextFetch = s.nextFetch := rfl
@[simp] theorem setMem_ea (m : Memory) (n : Nat) : (s.setMem m).ea n = s.ea n := rfl

@[simp] theorem setV_v (r : Reg) (b : Byte) : (s.setV r b).v = s.v.set r b := rfl
@[simp] theorem setV_i (r : Reg) (b : Byte) : (s.setV r b).i = s.i := rfl
@[simp] theorem setV_pc (r : Reg) (b : Byte) : (s.setV r b).pc = s.pc := rfl
@[simp] theorem setV_advSuppress (r : Reg) (b : Byte) : (s.setV r b).advSuppress = s.advSuppress := rfl
@[simp] theorem setV_stack (r : Reg) (b : Byte) : (s.setV r b).stack = s.stack := rfl
@[simp] theorem setV_sp (r : Reg) (b : Byte) : (s.setV r b).sp = s.sp := rfl
@[simp] theorem setV_dt (r : Reg) (b : Byte) : (s.setV r b).dt = s.dt := rfl
@[simp] theorem setV_st (r : Reg) (b : Byte) : (s.setV r b).st = s.st := rfl
@[simp] theorem setV_fb (r : Reg) (b : Byte) : (s.setV r b).fb = s.fb := rfl
@[simp] theorem setV_mem (r : Reg) (b : Byte) : (s.setV r b).mem = s.mem := rfl
@[simp] theorem setV_run (r : Reg) (b : Byte) : (s.setV r b).run = s.run := rfl
@[simp] theorem setV_switches (r : Reg) (b : Byte) : (s.setV r b).switches = s.switches := rfl
@[simp] theorem setV_inp (r : Reg) (b : Byte) : (s.setV r b).inp = s.inp := rfl
@[simp] theorem setV_inputs (r : Reg) (b : Byte) : (s.setV r b).inputs = s.inputs := rfl
@[simp] theorem setV_draws (r : Reg) (b : Byte) : (s.setV r b).draws = s.draws := rfl
@[simp] theorem setV_memRead (r : Reg) (b : Byte) (c : Nat) : (s.setV r b).memRead c = s.memRead c := rfl
@[simp] theorem setV_nextSlot (r : Reg) (b : Byte) : (s.setV r b).nextSlot = s.nextSlot := rfl
@[simp] theorem setV_nextFetch (r : Reg) (b : Byte) : (s.setV r b).nextFetch = s.nextFetch := rfl
@[simp] theorem setV_ea (r : Reg) (b : Byte) (n : Nat) : (s.setV r b).ea n = s.ea n := rfl

@[simp] theorem setI_v (w : Word) : (s.setI w).v = s.v := rfl
@[simp] theorem setI_i (w : Word) : (s.setI w).i = w := rfl
@[simp] theorem setI_pc (w : Word) : (s.setI w).pc = s.pc := rfl
@[simp] theorem setI_advSuppress (w : Word) : (s.setI w).advSuppress = s.advSuppress := rfl
@[simp] theorem setI_stack (w : Word) : (s.setI w).stack = s.stack := rfl
@[simp] theorem setI_sp (w : Word) : (s.setI w).sp = s.sp := rfl
@[simp] theorem setI_dt (w : Word) : (s.setI w).dt = s.dt := rfl
@[simp] theorem setI_st (w : Word) : (s.setI w).st = s.st := rfl
@[simp] theorem setI_fb (w : Word) : (s.setI w).fb = s.fb := rfl
@[simp] theorem setI_mem (w : Word) : (s.setI w).mem = s.mem := rfl
@[simp] theorem setI_run (w : Word) : (s.setI w).run = s.run := rfl
@[simp] theorem setI_switches (w : Word) : (s.setI w).switches = s.switches := rfl
@[simp] theorem setI_inp (w : Word) : (s.setI w).inp = s.inp := rfl
@[simp] theorem setI_inputs (w : Word) : (s.setI w).inputs = s.inputs := rfl
@[simp] theorem setI_draws (w : Word) : (s.setI w).draws = s.draws := rfl
@[simp] theorem setI_getV (w : Word) (x : Reg) : (s.setI w).getV x = s.getV x := rfl
@[simp] theorem setI_memRead (w : Word) (c : Nat) : (s.setI w).memRead c = s.memRead c := rfl
@[simp] theorem setI_nextSlot (w : Word) : (s.setI w).nextSlot = s.nextSlot := rfl
@[simp] theorem setI_nextFetch (w : Word) : (s.setI w).nextFetch = s.nextFetch := rfl

@[simp] theorem setDT_v (b : Byte) : (s.setDT b).v = s.v := rfl
@[simp] theorem setDT_i (b : Byte) : (s.setDT b).i = s.i := rfl
@[simp] theorem setDT_pc (b : Byte) : (s.setDT b).pc = s.pc := rfl
@[simp] theorem setDT_advSuppress (b : Byte) : (s.setDT b).advSuppress = s.advSuppress := rfl
@[simp] theorem setDT_stack (b : Byte) : (s.setDT b).stack = s.stack := rfl
@[simp] theorem setDT_sp (b : Byte) : (s.setDT b).sp = s.sp := rfl
@[simp] theorem setDT_dt (b : Byte) : (s.setDT b).dt = b := rfl
@[simp] theorem setDT_st (b : Byte) : (s.setDT b).st = s.st := rfl
@[simp] theorem setDT_fb (b : Byte) : (s.setDT b).fb = s.fb := rfl
@[simp] theorem setDT_mem (b : Byte) : (s.setDT b).mem = s.mem := rfl
@[simp] theorem setDT_run (b : Byte) : (s.setDT b).run = s.run := rfl
@[simp] theorem setDT_switches (b : Byte) : (s.setDT b).switches = s.switches := rfl
@[simp] theorem setDT_inp (b : Byte) : (s.setDT b).inp = s.inp := rfl
@[simp] theorem setDT_inputs (b : Byte) : (s.setDT b).inputs = s.inputs := rfl
@[simp] theorem setDT_draws (b : Byte) : (s.setDT b).draws = s.draws := rfl
@[simp] theorem setDT_getV (b : Byte) (x : Reg) : (s.setDT b).getV x = s.getV x := rfl
@[simp] theorem setDT_memRead (b : Byte) (c : Nat) : (s.setDT b).memRead c = s.memRead c := rfl
@[simp] theorem setDT_nextSlot (b : Byte) : (s.setDT b).nextSlot = s.nextSlot := rfl
@[simp] theorem setDT_nextFetch (b : Byte) : (s.setDT b).nextFetch = s.nextFetch := rfl
@[simp] theorem setDT_ea (b : Byte) (n : Nat) : (s.setDT b).ea n = s.ea n := rfl

@[simp] theorem setST_v (b : Byte) : (s.setST b).v = s.v := rfl
@[simp] theorem setST_i (b : Byte) : (s.setST b).i = s.i := rfl
@[simp] theorem setST_pc (b : Byte) : (s.setST b).pc = s.pc := rfl
@[simp] theorem setST_advSuppress (b : Byte) : (s.setST b).advSuppress = s.advSuppress := rfl
@[simp] theorem setST_stack (b : Byte) : (s.setST b).stack = s.stack := rfl
@[simp] theorem setST_sp (b : Byte) : (s.setST b).sp = s.sp := rfl
@[simp] theorem setST_dt (b : Byte) : (s.setST b).dt = s.dt := rfl
@[simp] theorem setST_st (b : Byte) : (s.setST b).st = b := rfl
@[simp] theorem setST_fb (b : Byte) : (s.setST b).fb = s.fb := rfl
@[simp] theorem setST_mem (b : Byte) : (s.setST b).mem = s.mem := rfl
@[simp] theorem setST_run (b : Byte) : (s.setST b).run = s.run := rfl
@[simp] theorem setST_switches (b : Byte) : (s.setST b).switches = s.switches := rfl
@[simp] theorem setST_inp (b : Byte) : (s.setST b).inp = s.inp := rfl
@[simp] theorem setST_inputs (b : Byte) : (s.setST b).inputs = s.inputs := rfl
@[simp] theorem setST_draws (b : Byte) : (s.setST b).draws = s.draws := rfl
@[simp] theorem setST_getV (b : Byte) (x : Reg) : (s.setST b).getV x = s.getV x := rfl
@[simp] theorem setST_memRead (b : Byte) (c : Nat) : (s.setST b).memRead c = s.memRead c := rfl
@[simp] theorem setST_nextSlot (b : Byte) : (s.setST b).nextSlot = s.nextSlot := rfl
@[simp] theorem setST_nextFetch (b : Byte) : (s.setST b).nextFetch = s.nextFetch := rfl
@[simp] theorem setST_ea (b : Byte) (n : Nat) : (s.setST b).ea n = s.ea n := rfl

@[simp] theorem transfer_v (w : Word) : (s.transfer w).v = s.v := rfl
@[simp] theorem transfer_i (w : Word) : (s.transfer w).i = s.i := rfl
@[simp] theorem transfer_pc (w : Word) : (s.transfer w).pc = w := rfl
@[simp] theorem transfer_advSuppress (w : Word) : (s.transfer w).advSuppress = true := rfl
@[simp] theorem transfer_stack (w : Word) : (s.transfer w).stack = s.stack := rfl
@[simp] theorem transfer_sp (w : Word) : (s.transfer w).sp = s.sp := rfl
@[simp] theorem transfer_dt (w : Word) : (s.transfer w).dt = s.dt := rfl
@[simp] theorem transfer_st (w : Word) : (s.transfer w).st = s.st := rfl
@[simp] theorem transfer_fb (w : Word) : (s.transfer w).fb = s.fb := rfl
@[simp] theorem transfer_mem (w : Word) : (s.transfer w).mem = s.mem := rfl
@[simp] theorem transfer_run (w : Word) : (s.transfer w).run = s.run := rfl
@[simp] theorem transfer_switches (w : Word) : (s.transfer w).switches = s.switches := rfl
@[simp] theorem transfer_inp (w : Word) : (s.transfer w).inp = s.inp := rfl
@[simp] theorem transfer_inputs (w : Word) : (s.transfer w).inputs = s.inputs := rfl
@[simp] theorem transfer_draws (w : Word) : (s.transfer w).draws = s.draws := rfl
@[simp] theorem transfer_getV (w : Word) (x : Reg) : (s.transfer w).getV x = s.getV x := rfl
@[simp] theorem transfer_memRead (w : Word) (c : Nat) : (s.transfer w).memRead c = s.memRead c := rfl
@[simp] theorem transfer_nextSlot (w : Word) : (s.transfer w).nextSlot = s.nextSlot := rfl
@[simp] theorem transfer_ea (w : Word) (n : Nat) : (s.transfer w).ea n = s.ea n := rfl

@[simp] theorem pushAt_v (k : Fin 16) (w : Word) : (s.pushAt k w).v = s.v := rfl
@[simp] theorem pushAt_i (k : Fin 16) (w : Word) : (s.pushAt k w).i = s.i := rfl
@[simp] theorem pushAt_pc (k : Fin 16) (w : Word) : (s.pushAt k w).pc = s.pc := rfl
@[simp] theorem pushAt_advSuppress (k : Fin 16) (w : Word) : (s.pushAt k w).advSuppress = s.advSuppress := rfl
@[simp] theorem pushAt_stack (k : Fin 16) (w : Word) : (s.pushAt k w).stack = s.stack.set k w := rfl
@[simp] theorem pushAt_sp (k : Fin 16) (w : Word) : (s.pushAt k w).sp = some k := rfl
@[simp] theorem pushAt_dt (k : Fin 16) (w : Word) : (s.pushAt k w).dt = s.dt := rfl
@[simp] theorem pushAt_st (k : Fin 16) (w : Word) : (s.pushAt k w).st = s.st := rfl
@[simp] theorem pushAt_fb (k : Fin 16) (w : Word) : (s.pushAt k w).fb = s.fb := rfl
@[simp] theorem pushAt_mem (k : Fin 16) (w : Word) : (s.pushAt k w).mem = s.mem := rfl
@[simp] theorem pushAt_run (k : Fin 16) (w : Word) : (s.pushAt k w).run = s.run := rfl
@[simp] theorem pushAt_switches (k : Fin 16) (w : Word) : (s.pushAt k w).switches = s.switches := rfl
@[simp] theorem pushAt_inp (k : Fin 16) (w : Word) : (s.pushAt k w).inp = s.inp := rfl
@[simp] theorem pushAt_inputs (k : Fin 16) (w : Word) : (s.pushAt k w).inputs = s.inputs := rfl
@[simp] theorem pushAt_draws (k : Fin 16) (w : Word) : (s.pushAt k w).draws = s.draws := rfl
@[simp] theorem pushAt_getV (k : Fin 16) (w : Word) (x : Reg) : (s.pushAt k w).getV x = s.getV x := rfl
@[simp] theorem pushAt_memRead (k : Fin 16) (w : Word) (c : Nat) : (s.pushAt k w).memRead c = s.memRead c := rfl
@[simp] theorem pushAt_nextFetch (k : Fin 16) (w : Word) : (s.pushAt k w).nextFetch = s.nextFetch := rfl
@[simp] theorem pushAt_ea (k : Fin 16) (w : Word) (n : Nat) : (s.pushAt k w).ea n = s.ea n := rfl

@[simp] theorem dropTop_v (k : Fin 16) : (s.dropTop k).v = s.v := rfl
@[simp] theorem dropTop_i (k : Fin 16) : (s.dropTop k).i = s.i := rfl
@[simp] theorem dropTop_pc (k : Fin 16) : (s.dropTop k).pc = s.pc := rfl
@[simp] theorem dropTop_advSuppress (k : Fin 16) : (s.dropTop k).advSuppress = s.advSuppress := rfl
@[simp] theorem dropTop_stack (k : Fin 16) : (s.dropTop k).stack = s.stack := rfl
@[simp] theorem dropTop_sp (k : Fin 16) : (s.dropTop k).sp = if k = 0 then none else some (k - 1) := rfl
@[simp] theorem dropTop_dt (k : Fin 16) : (s.dropTop k).dt = s.dt := rfl
@[simp] theorem dropTop_st (k : Fin 16) : (s.dropTop k).st = s.st := rfl
@[simp] theorem dropTop_fb (k : Fin 16) : (s.dropTop k).fb = s.fb := rfl
@[simp] theorem dropTop_mem (k : Fin 16) : (s.dropTop k).mem = s.mem := rfl
@[simp] theorem dropTop_run (k : Fin 16) : (s.dropTop k).run = s.run := rfl
@[simp] theorem dropTop_switches (k : Fin 16) : (s.dropTop k).switches = s.switches := rfl
@[simp] theorem dropTop_inp (k : Fin 16) : (s.dropTop k).inp = s.inp := rfl
@[simp] theorem dropTop_inputs (k : Fin 16) : (s.dropTop k).inputs = s.inputs := rfl
@[simp] theorem dropTop_draws (k : Fin 16) : (s.dropTop k).draws = s.draws := rfl
@[simp] theorem dropTop_getV (k : Fin 16) (x : Reg) : (s.dropTop k).getV x = s.getV x := rfl
@[simp] theorem dropTop_memRead (k : Fin 16) (c : Nat) : (s.dropTop k).memRead c = s.memRead c := rfl
@[simp] theorem dropTop_nextFetch (k : Fin 16) : (s.dropTop k).nextFetch = s.nextFetch := rfl
@[simp] theorem dropTop_ea (k : Fin 16) (n : Nat) : (s.dropTop k).ea n = s.ea n := rfl

@[simp] theorem setFb_v (f : Framebuffer) : (s.setFb f).v = s.v := rfl
@[simp] theorem setFb_i (f : Framebuffer) : (s.setFb f).i = s.i := rfl
@[simp] theorem setFb_pc (f : Framebuffer) : (s.setFb f).pc = s.pc := rfl
@[simp] theorem setFb_advSuppress (f : Framebuffer) : (s.setFb f).advSuppress = s.advSuppress := rfl
@[simp] theorem setFb_stack (f : Framebuffer) : (s.setFb f).stack = s.stack := rfl
@[simp] theorem setFb_sp (f : Framebuffer) : (s.setFb f).sp = s.sp := rfl
@[simp] theorem setFb_dt (f : Framebuffer) : (s.setFb f).dt = s.dt := rfl
@[simp] theorem setFb_st (f : Framebuffer) : (s.setFb f).st = s.st := rfl
@[simp] theorem setFb_fb (f : Framebuffer) : (s.setFb f).fb = f := rfl
@[simp] theorem setFb_mem (f : Framebuffer) : (s.setFb f).mem = s.mem := rfl
@[simp] theorem setFb_run (f : Framebuffer) : (s.setFb f).run = s.run := rfl
@[simp] theorem setFb_switches (f : Framebuffer) : (s.setFb f).switches = s.switches := rfl
@[simp] theorem setFb_inp (f : Framebuffer) : (s.setFb f).inp = s.inp := rfl
@[simp] theorem setFb_inputs (f : Framebuffer) : (s.setFb f).inputs = s.inputs := rfl
@[simp] theorem setFb_draws (f : Framebuffer) : (s.setFb f).draws = s.draws := rfl
@[simp] theorem setFb_getV (f : Framebuffer) (x : Reg) : (s.setFb f).getV x = s.getV x := rfl
@[simp] theorem setFb_memRead (f : Framebuffer) (c : Nat) : (s.setFb f).memRead c = s.memRead c := rfl
@[simp] theorem setFb_nextSlot (f : Framebuffer) : (s.setFb f).nextSlot = s.nextSlot := rfl
@[simp] theorem setFb_nextFetch (f : Framebuffer) : (s.setFb f).nextFetch = s.nextFetch := rfl
@[simp] theorem setFb_ea (f : Framebuffer) (n : Nat) : (s.setFb f).ea n = s.ea n := rfl

@[simp] theorem setRun_v (r : Run) : (s.setRun r).v = s.v := rfl
@[simp] theorem setRun_i (r : Run) : (s.setRun r).i = s.i := rfl
@[simp] theorem setRun_pc (r : Run) : (s.setRun r).pc = s.pc := rfl
@[simp] theorem setRun_advSuppress (r : Run) : (s.setRun r).advSuppress = s.advSuppress := rfl
@[simp] theorem setRun_stack (r : Run) : (s.setRun r).stack = s.stack := rfl
@[simp] theorem setRun_sp (r : Run) : (s.setRun r).sp = s.sp := rfl
@[simp] theorem setRun_dt (r : Run) : (s.setRun r).dt = s.dt := rfl
@[simp] theorem setRun_st (r : Run) : (s.setRun r).st = s.st := rfl
@[simp] theorem setRun_fb (r : Run) : (s.setRun r).fb = s.fb := rfl
@[simp] theorem setRun_mem (r : Run) : (s.setRun r).mem = s.mem := rfl
@[simp] theorem setRun_run (r : Run) : (s.setRun r).run = r := rfl
@[simp] theorem setRun_switches (r : Run) : (s.setRun r).switches = s.switches := rfl
@[simp] theorem setRun_inp (r : Run) : (s.setRun r).inp = s.inp := rfl
@[simp] theorem setRun_inputs (r : Run) : (s.setRun r).inputs = s.inputs := rfl
@[simp] theorem setRun_draws (r : Run) : (s.setRun r).draws = s.draws := rfl
@[simp] theorem setRun_getV (r : Run) (x : Reg) : (s.setRun r).getV x = s.getV x := rfl
@[simp] theorem setRun_memRead (r : Run) (c : Nat) : (s.setRun r).memRead c = s.memRead c := rfl
@[simp] theorem setRun_nextSlot (r : Run) : (s.setRun r).nextSlot = s.nextSlot := rfl
@[simp] theorem setRun_nextFetch (r : Run) : (s.setRun r).nextFetch = s.nextFetch := rfl
@[simp] theorem setRun_ea (r : Run) (n : Nat) : (s.setRun r).ea n = s.ea n := rfl

@[simp] theorem sample_v : s.sample.v = s.v := rfl
@[simp] theorem sample_i : s.sample.i = s.i := rfl
@[simp] theorem sample_pc : s.sample.pc = s.pc := rfl
@[simp] theorem sample_advSuppress : s.sample.advSuppress = s.advSuppress := rfl
@[simp] theorem sample_stack : s.sample.stack = s.stack := rfl
@[simp] theorem sample_sp : s.sample.sp = s.sp := rfl
@[simp] theorem sample_dt : s.sample.dt = s.dt := rfl
@[simp] theorem sample_st : s.sample.st = s.st := rfl
@[simp] theorem sample_fb : s.sample.fb = s.fb := rfl
@[simp] theorem sample_mem : s.sample.mem = s.mem := rfl
@[simp] theorem sample_run : s.sample.run = s.run := rfl
@[simp] theorem sample_switches : s.sample.switches = s.switches := rfl
@[simp] theorem sample_inp : s.sample.inp = s.nextInput := rfl
@[simp] theorem sample_inputs : s.sample.inputs = s.inputs.tail := rfl
@[simp] theorem sample_draws : s.sample.draws = if s.inputs.isEmpty then s.draws + 1 else s.draws := rfl
@[simp] theorem sample_getV (x : Reg) : s.sample.getV x = s.getV x := rfl
@[simp] theorem sample_memRead (c : Nat) : s.sample.memRead c = s.memRead c := rfl
@[simp] theorem sample_nextSlot : s.sample.nextSlot = s.nextSlot := rfl
@[simp] theorem sample_nextFetch : s.sample.nextFetch = s.nextFetch := rfl
@[simp] theorem sample_ea (n : Nat) : s.sample.ea n = s.ea n := rfl

@[simp] theorem tick_v : s.tick.v = s.v := rfl
@[simp] theorem tick_i : s.tick.i = s.i := rfl
@[simp] theorem tick_pc : s.tick.pc = s.pc := rfl
@[simp] theorem tick_advSuppress : s.tick.advSuppress = s.advSuppress := rfl
@[simp] theorem tick_stack : s.tick.stack = s.stack := rfl
@[simp] theorem tick_sp : s.tick.sp = s.sp := rfl
@[simp] theorem tick_dt : s.tick.dt = decay s.dt s.inp.dDT := rfl
@[simp] theorem tick_st : s.tick.st = decay s.st s.inp.dST := rfl
@[simp] theorem tick_fb : s.tick.fb = s.fb := rfl
@[simp] theorem tick_mem : s.tick.mem = s.mem := rfl
@[simp] theorem tick_run : s.tick.run = s.run := rfl
@[simp] theorem tick_switches : s.tick.switches = s.switches := rfl
@[simp] theorem tick_inp : s.tick.inp = s.inp := rfl
@[simp] theorem tick_inputs : s.tick.inputs = s.inputs := rfl
@[simp] theorem tick_draws : s.tick.draws = s.draws := rfl
@[simp] theorem tick_getV (x : Reg) : s.tick.getV x = s.getV x := rfl
@[simp] theorem tick_memRead (c : Nat) : s.tick.memRead c = s.memRead c := rfl
@[simp] theorem tick_nextSlot : s.tick.nextSlot = s.nextSlot := rfl
@[simp] theorem tick_nextFetch : s.tick.nextFetch = s.nextFetch := rfl
@[simp] theorem tick_ea (n : Nat) : s.tick.ea n = s.ea n := rfl

@[simp] theorem advance_v : s.advance.v = s.v := rfl
@[simp] theorem advance_i : s.advance.i = s.i := rfl
@[simp] theorem advance_pc : s.advance.pc = BitVec.ofNat 16 s.nextFetch := rfl
@[simp] theorem advance_advSuppress : s.advance.advSuppress = false := rfl
@[simp] theorem advance_stack : s.advance.stack = s.stack := rfl
@[simp] theorem advance_sp : s.advance.sp = s.sp := rfl
@[simp] theorem advance_dt : s.advance.dt = s.dt := rfl
@[simp] theorem advance_st : s.advance.st = s.st := rfl
@[simp] theorem advance_fb : s.advance.fb = s.fb := rfl
@[simp] theorem advance_mem : s.advance.mem = s.mem := rfl
@[simp] theorem advance_run : s.advance.run = s.run := rfl
@[simp] theorem advance_switches : s.advance.switches = s.switches := rfl
@[simp] theorem advance_inp : s.advance.inp = s.inp := rfl
@[simp] theorem advance_inputs : s.advance.inputs = s.inputs := rfl
@[simp] theorem advance_draws : s.advance.draws = s.draws := rfl
@[simp] theorem advance_getV (x : Reg) : s.advance.getV x = s.getV x := rfl
@[simp] theorem advance_memRead (c : Nat) : s.advance.memRead c = s.memRead c := rfl
@[simp] theorem advance_nextSlot : s.advance.nextSlot = s.nextSlot := rfl
@[simp] theorem advance_ea (n : Nat) : s.advance.ea n = s.ea n := rfl

@[simp] theorem enter_v : s.enter.v = s.v := rfl
@[simp] theorem enter_i : s.enter.i = s.i := rfl
@[simp] theorem enter_pc : s.enter.pc = BitVec.ofNat 16 s.nextFetch := rfl
@[simp] theorem enter_advSuppress : s.enter.advSuppress = false := rfl
@[simp] theorem enter_stack : s.enter.stack = s.stack := rfl
@[simp] theorem enter_sp : s.enter.sp = s.sp := rfl
@[simp] theorem enter_dt : s.enter.dt = decay s.dt s.nextInput.dDT := rfl
@[simp] theorem enter_st : s.enter.st = decay s.st s.nextInput.dST := rfl
@[simp] theorem enter_fb : s.enter.fb = s.fb := rfl
@[simp] theorem enter_mem : s.enter.mem = s.mem := rfl
@[simp] theorem enter_run : s.enter.run = s.run := rfl
@[simp] theorem enter_switches : s.enter.switches = s.switches := rfl
@[simp] theorem enter_inp : s.enter.inp = s.nextInput := rfl
@[simp] theorem enter_inputs : s.enter.inputs = s.inputs.tail := rfl
@[simp] theorem enter_draws : s.enter.draws = if s.inputs.isEmpty then s.draws + 1 else s.draws := rfl
@[simp] theorem enter_getV (x : Reg) : s.enter.getV x = s.getV x := rfl
@[simp] theorem enter_memRead (c : Nat) : s.enter.memRead c = s.memRead c := rfl
@[simp] theorem enter_nextSlot : s.enter.nextSlot = s.nextSlot := rfl
@[simp] theorem enter_ea (n : Nat) : s.enter.ea n = s.ea n := rfl

/-- A register reads as the value last written to it. -/
@[simp] theorem getV_setV_same (r : Reg) (b : Byte) : (s.setV r b).getV r = b := by
  simp [getV, setV]

/-- A register write leaves every other register alone. -/
theorem getV_setV_other {r x : Reg} (b : Byte) (h : r ≠ x) : (s.setV r b).getV x = s.getV x := by
  have h' : r.val ≠ x.val := fun e => h (Fin.ext e)
  simp [getV, setV, h']

/-- A register read after a register write. -/
theorem getV_setV (r x : Reg) (b : Byte) : (s.setV r b).getV x = if r = x then b else s.getV x := by
  by_cases h : r = x
  · subst h; simp
  · simp [h, getV_setV_other s b h]

/-- Two states with the same registers have the same register file. -/
theorem v_ext {s t : State} (h : ∀ r, t.getV r = s.getV r) : t.v = s.v := by
  apply Vector.ext
  intro k hk
  exact h ⟨k, hk⟩

@[simp] theorem skip_eq : s.skip = s.transfer (s.pc + 4) := rfl

@[simp] theorem transfer_nextFetch (w : Word) : (s.transfer w).nextFetch = w.toNat := rfl

end Sys2Proof.Machine.State
end

