-- ==== Sys2Proof/Laws/Ops.lean ====
section
/-! SUPPORT. One lemma for each shared operation that says once what it can do: memory accesses and their faults, block
reads and writes, the stack, pixels and the blit. Proofs cite these and do not unfold the operations. -/

namespace Sys2Proof.Machine

/-! Single bytes (R51, R52) -/

theorem State.memRead_lt (s : State) {a : Nat} (h : a < Config.memSize) : s.memRead a = .ok (s.mem.read a) := by
  simp [memRead, h]

theorem State.memRead_ge (s : State) {a : Nat} (h : Config.memSize ≤ a) : s.memRead a = .error (.outOfRangeMem a) := by
  simp [memRead, Nat.not_lt.2 h]

theorem State.memWrite_lt (s : State) {a : Nat} (h : a < Config.memSize) (b : Byte) :
    s.memWrite a b = .ok (s.setMem (s.mem.write a b)) := by
  simp [memWrite, h]

theorem State.memWrite_ge (s : State) {a : Nat} (h : Config.memSize ≤ a) (b : Byte) :
    s.memWrite a b = .error (.outOfRangeMem a) := by
  simp [memWrite, Nat.not_lt.2 h]

/-- A read that succeeds was in range. -/
theorem State.memRead_ok {s : State} {a : Nat} {b : Byte} (h : s.memRead a = .ok b) :
    a < Config.memSize ∧ b = s.mem.read a := by
  by_cases ha : a < Config.memSize
  · rw [memRead_lt s ha] at h
    exact ⟨ha, (Except.ok.inj h).symm⟩
  · rw [memRead_ge s (Nat.not_lt.1 ha)] at h
    cases h

/-! Fetch (R54) -/

theorem State.fetch_ok (s : State) {a : Nat} (h : a + 1 < Config.memSize) :
    s.fetch a = .ok (wordOfBytes (s.mem.read a) (s.mem.read (a + 1))) := by
  simp [fetch, memRead_lt s h, memRead_lt s (Nat.lt_of_succ_lt h)]

theorem State.fetch_ge (s : State) {a : Nat} (h : Config.memSize ≤ a) : s.fetch a = .error (.outOfRangeMem a) := by
  simp [fetch, memRead_ge s h]

theorem State.fetch_last (s : State) {a : Nat} (h : a + 1 = Config.memSize) :
    s.fetch a = .error (.outOfRangeMem (a + 1)) := by
  simp [fetch, memRead_lt s (show a < Config.memSize by omega), memRead_ge s (Nat.le_of_eq h.symm)]

/-- A fetch that succeeds had both bytes in range. -/
theorem State.fetch_ok_inv {s : State} {a : Nat} {w : Word} (h : s.fetch a = .ok w) :
    a + 1 < Config.memSize ∧ w = wordOfBytes (s.mem.read a) (s.mem.read (a + 1)) := by
  rcases Nat.lt_trichotomy (a + 1) Config.memSize with hl | hl | hl
  · rw [fetch_ok s hl] at h
    exact ⟨hl, (Except.ok.inj h).symm⟩
  · rw [fetch_last s hl] at h
    cases h
  · rw [fetch_ge s (by omega)] at h
    cases h

/-- Fetch depends on memory alone. -/
theorem State.fetch_congr {s t : State} (h : t.mem = s.mem) (a : Nat) : t.fetch a = s.fetch a := by
  simp only [fetch, memRead_congr h]

/-! Block reads (R56) -/

theorem State.memReads_ok (s : State) (a n : Nat) (h : ∀ k < n, a + k < Config.memSize) :
    s.memReads a n = .ok ((List.range n).map fun k => s.mem.read (a + k)) := by
  induction n generalizing a with
  | zero => rfl
  | succ n ih =>
    have h0 : a < Config.memSize := by simpa using h 0 (by omega)
    have hs := ih (a + 1) fun k hk => by simpa [Nat.add_assoc, Nat.add_comm 1 k] using h (k + 1) (by omega)
    simp only [memReads, memRead_lt s h0, hs, List.range_succ_eq_map, List.map_cons, List.map_map, Nat.add_zero]
    refine congrArg (fun l => Except.ok (s.mem.read a :: l)) (List.map_congr_left fun k _ => ?_)
    simp [Nat.add_assoc, Nat.add_comm 1 k]

/-- The first address out of range is the one reported. -/
theorem State.memReads_error (s : State) (a n k : Nat) (hk : k < n) (hin : ∀ j < k, a + j < Config.memSize)
    (hout : Config.memSize ≤ a + k) : s.memReads a n = .error (.outOfRangeMem (a + k)) := by
  induction n generalizing a k with
  | zero => omega
  | succ n ih =>
    cases k with
    | zero => simp [memReads, memRead_ge s (by simpa using hout)]
    | succ k =>
      have h0 : a < Config.memSize := by simpa using hin 0 (by omega)
      have hs := ih (a + 1) k (by omega) (fun j hj => by have := hin (j + 1) (by omega); omega) (by omega)
      simp only [memReads, memRead_lt s h0, hs, Nat.add_assoc, Nat.add_comm 1 k]

/-! Block writes (R56, R204) -/

theorem memWrites_ok (a : Nat) (bs : List Byte) (s : State) (h : ∀ k < bs.length, a + k < Config.memSize) :
    memWrites a bs s = .next (s.setMem (s.mem.writeList a bs)) := by
  induction bs generalizing a s with
  | nil => rfl
  | cons b bs ih =>
    have h0 : a < Config.memSize := by simpa using h 0 (by simp)
    have hs := ih (a + 1) (s.setMem (s.mem.write a b))
      fun k hk => by have := h (k + 1) (by simpa using hk); omega
    simp only [memWrites, State.memWrite_lt s h0, hs]
    rfl

/-- The writes before the first address out of range stand. -/
theorem memWrites_fault (a : Nat) (bs : List Byte) (s : State) (k : Nat) (hk : k < bs.length)
    (hin : ∀ j < k, a + j < Config.memSize) (hout : Config.memSize ≤ a + k) :
    memWrites a bs s = raise (.outOfRangeMem (a + k)) (s.setMem (s.mem.writeList a (bs.take k))) := by
  induction bs generalizing a s k with
  | nil => simp at hk
  | cons b bs ih =>
    cases k with
    | zero => simp [memWrites, State.memWrite_ge s (by simpa using hout), Memory.writeList, State.setMem]
    | succ k =>
      have h0 : a < Config.memSize := by simpa using hin 0 (by omega)
      have hs := ih (a + 1) (s.setMem (s.mem.write a b)) k (by simpa using hk)
        (fun j hj => by have := hin (j + 1) (by omega); omega) (by omega)
      simp only [memWrites, State.memWrite_lt s h0, hs, Nat.add_assoc, Nat.add_comm 1 k]
      rfl

/-- A block write answers one of two things. -/
theorem memWrites_cases (a : Nat) (bs : List Byte) (s : State) :
    memWrites a bs s = .next (s.setMem (s.mem.writeList a bs)) ∧ (∀ k < bs.length, a + k < Config.memSize) ∨
    ∃ k < bs.length, (∀ j < k, a + j < Config.memSize) ∧ Config.memSize ≤ a + k ∧
      memWrites a bs s = raise (.outOfRangeMem (a + k)) (s.setMem (s.mem.writeList a (bs.take k))) := by
  by_cases h : ∀ k < bs.length, a + k < Config.memSize
  · exact .inl ⟨memWrites_ok a bs s h, h⟩
  · have hx : ∃ k, k < bs.length ∧ Config.memSize ≤ a + k := by
      by_contra hc
      exact h fun k hk => Nat.lt_of_not_le fun hle => hc ⟨k, hk, hle⟩
    have hf := Nat.find_spec hx
    have hm : ∀ j < Nat.find hx, a + j < Config.memSize := fun j hj =>
      Nat.lt_of_not_le fun hle => Nat.find_min hx hj ⟨hj.trans hf.1, hle⟩
    exact .inr ⟨Nat.find hx, hf.1, hm, hf.2, memWrites_fault a bs s _ hf.1 hm hf.2⟩

/-! Block loads (R187, R204) -/

/-- The registers of a block transfer: V0 to Vx, each once, in order. -/
theorem regsUpTo_length (x : Reg) : (regsUpTo x).length = x.val + 1 := by simp [regsUpTo]

theorem regsUpTo_getElem (x : Reg) (k : Nat) (h : k < (regsUpTo x).length) : (regsUpTo x)[k] = Fin.ofNat 16 k := by
  simp [regsUpTo]

theorem mem_regsUpTo {x r : Reg} : r ∈ regsUpTo x ↔ r.val ≤ x.val := by
  simp only [regsUpTo, List.mem_map, List.mem_range]
  constructor
  · rintro ⟨k, hk, rfl⟩
    have := x.isLt
    simp only [Fin.val_ofNat]
    omega
  · intro h
    exact ⟨r.val, by omega, by ext; simp⟩

/-- Loads that all lie in range: register k of the list reads byte a + k, and nothing else changes. -/
theorem loadsV_ok (a : Nat) (rs : List Reg) (s : State) (hn : rs.Nodup) (h : ∀ k < rs.length, a + k < Config.memSize) :
    ∃ t, loadsV a rs s = .next t ∧ t = { s with v := t.v } ∧ (∀ r, r ∉ rs → t.getV r = s.getV r) ∧
      ∀ k (hk : k < rs.length), t.getV rs[k] = s.mem.read (a + k) := by
  induction rs generalizing a s with
  | nil => exact ⟨s, rfl, rfl, fun _ _ => rfl, fun k hk => absurd hk (by simp)⟩
  | cons r rs ih =>
    have h0 : a < Config.memSize := by simpa using h 0 (by simp)
    obtain ⟨hr, hn⟩ := List.nodup_cons.1 hn
    obtain ⟨t, ht, hf, ho, hl⟩ := ih (a + 1) (s.setV r (s.mem.read a)) hn
      fun k hk => by have := h (k + 1) (by simpa using hk); omega
    refine ⟨t, by simp [loadsV, State.memRead_lt s h0, ht], by rw [hf]; rfl, fun q hq => ?_, fun k hk => ?_⟩
    · obtain ⟨h1, h2⟩ := not_or.1 (mt List.mem_cons.2 hq)
      rw [ho q h2, State.getV_setV_other s _ (Ne.symm h1)]
    · cases k with
      | zero => simpa using (ho r hr).trans (State.getV_setV_same s r _)
      | succ k => simpa [Nat.add_assoc, Nat.add_comm 1 k] using hl k (by simpa using hk)

/-- The loads before the first address out of range stand. -/
theorem loadsV_fault (a : Nat) (rs : List Reg) (s : State) (hn : rs.Nodup) (k : Nat) (hk : k < rs.length)
    (hin : ∀ j < k, a + j < Config.memSize) (hout : Config.memSize ≤ a + k) :
    ∃ t, loadsV a rs s = raise (.outOfRangeMem (a + k)) t ∧ t = { s with v := t.v } ∧
      (∀ r, r ∉ rs.take k → t.getV r = s.getV r) ∧
      ∀ j (hj : j < rs.length), j < k → t.getV rs[j] = s.mem.read (a + j) := by
  induction rs generalizing a s k with
  | nil => simp at hk
  | cons r rs ih =>
    cases k with
    | zero =>
      exact ⟨s, by simp [loadsV, State.memRead_ge s (by simpa using hout)], rfl, fun _ _ => rfl,
        fun j _ hj => absurd hj (by omega)⟩
    | succ k =>
      have h0 : a < Config.memSize := by simpa using hin 0 (by omega)
      obtain ⟨hr, hn⟩ := List.nodup_cons.1 hn
      obtain ⟨t, ht, hf, ho, hl⟩ := ih (a + 1) (s.setV r (s.mem.read a)) hn k (by simpa using hk)
        (fun j hj => by have := hin (j + 1) (by omega); omega) (by omega)
      refine ⟨t, by simp [loadsV, State.memRead_lt s h0, ht, Nat.add_assoc, Nat.add_comm 1 k], by rw [hf]; rfl,
        fun q hq => ?_, fun j hj hjk => ?_⟩
      · obtain ⟨h1, h2⟩ := not_or.1 (mt List.mem_cons.2 (by simpa using hq))
        rw [ho q h2, State.getV_setV_other s _ (Ne.symm h1)]
      · cases j with
        | zero => simpa using (ho r (fun hm => hr (List.mem_of_mem_take hm))).trans (State.getV_setV_same s r _)
        | succ j => simpa [Nat.add_assoc, Nat.add_comm 1 j] using hl j (by simpa using hj) (by omega)

theorem regsUpTo_nodup (x : Reg) : (regsUpTo x).Nodup := by
  refine List.Nodup.map_on (fun i hi j hj h => ?_) List.nodup_range
  have hx := x.isLt
  have hi := List.mem_range.1 hi
  have hj := List.mem_range.1 hj
  have := congrArg Fin.val h
  simp only [Fin.val_ofNat] at this
  omega

/-! The call stack (R28) -/

theorem State.push_cases (s : State) (w : Word) :
    (s.sp = some 15 ∧ s.push w = .error .stackOverflow) ∨
    ∃ k, s.nextSlot = some k ∧ (k : Int) = s.spValue + 1 ∧ s.push w = .ok (s.pushAt k w) := by
  rcases hs : s.sp with _ | k
  · exact .inr ⟨0, by simp [nextSlot, hs], by simp [spValue, hs], by simp [push, nextSlot, hs]⟩
  · by_cases hk : k = 15
    · exact .inl ⟨by simp [hk], by simp [push, nextSlot, hs, hk]⟩
    · have hlt : k.val + 1 < 16 := by have := k.isLt; omega
      refine .inr ⟨k + 1, by simp [nextSlot, hs, hk], ?_, by simp [push, nextSlot, hs, hk]⟩
      simp [spValue, hs, Fin.val_add, Nat.mod_eq_of_lt hlt]

theorem State.pop_cases (s : State) :
    (s.sp = none ∧ s.pop = .error .stackUnderflow) ∨
    ∃ k, s.sp = some k ∧ s.pop = .ok (s.stack[k], s.dropTop k) := by
  rcases hs : s.sp with _ | k
  · exact .inl ⟨rfl, by simp [pop, hs]⟩
  · exact .inr ⟨k, rfl, by simp [pop, hs]⟩

/-! Pixels (R140) and the blit (R142) -/

theorem pixel_setPixel (f : Framebuffer) (x x' : Fin 64) (y y' : Fin 32) (b : Bool) :
    pixel (setPixel f x y b) x' y' = if x' = x ∧ y' = y then b else pixel f x' y' := by
  by_cases hy : y' = y
  · subst hy
    by_cases hx : x' = x
    · subst hx; simp [pixel, setPixel]
    · have : x.val ≠ x'.val := fun e => hx (Fin.ext e.symm)
      simp [pixel, setPixel, hx, this]
  · have : y.val ≠ y'.val := fun e => hy (Fin.ext e.symm)
    simp [pixel, setPixel, hy, this]

/-- Two grids with the same pixels are the same grid. -/
theorem framebuffer_ext {f g : Framebuffer} (h : ∀ x y, pixel f x y = pixel g x y) : f = g := by
  apply Vector.ext
  intro j hj
  apply Vector.ext
  intro k hk
  exact h ⟨k, hk⟩ ⟨j, hj⟩

/-- Visiting a pixel toggles it, leaves every other, and records a collision exactly when it was on. -/
theorem blitPixel_spec (x : Fin 64) (y : Fin 32) (b : Blit) :
    (∀ x' y', pixel (blitPixel x y b).fb x' y' = if x' = x ∧ y' = y then !pixel b.fb x' y' else pixel b.fb x' y') ∧
    (blitPixel x y b).collided = (b.collided || pixel b.fb x y) := by
  unfold blitPixel
  split
  · next h =>
    refine ⟨fun x' y' => ?_, by simp [h]⟩
    rw [pixel_setPixel]
    split
    · next e => rw [e.1, e.2, h]; rfl
    · rfl
  · next h =>
    refine ⟨fun x' y' => ?_, by simp [h]⟩
    rw [pixel_setPixel]
    split
    · next e => rw [e.1, e.2]; simp [h]
    · rfl

end Sys2Proof.Machine
end

