-- ==== Sys2Proof/Laws/Step.lean ====
section
/-! SUPPORT. What a step can do, said once: the three ways it can end, and what its first two phases leave. -/

namespace Sys2Proof.Machine

/-- A timer after a tick, as R170 writes it. -/
theorem decay_toNat (t : Byte) (d : Nat) : (decay t d).toNat = t.toNat - min t.toNat d := by
  have := t.isLt
  unfold decay
  split
  · next h => simp [h]
  · rw [BitVec.toNat_ofNat]
    omega

/-- A faulted state has no step (R33). -/
theorem step_faulted {s : State} {r : FaultRecord} (h : s.run = .faulted r) : step s = .fault (.noStep r) := by
  simp [step, h]

/-- A step that answers a next state ran an instruction that was fetched and decoded (R100). -/
theorem step_next {s t : State} (h : step s = .next t) :
    s.run = .running ∧ ∃ w i, s.enter.fetch s.nextFetch = .ok w ∧ decode w = .ok i ∧ exec i s.enter = .next t := by
  unfold step at h
  split at h
  · cases h
  · next hr =>
    split at h
    · simp [raise, raiseAt] at h
    · next w hw =>
      split at h
      · next i hi => exact ⟨hr, w, i, hw, hi, h⟩
      · simp [raise, raiseAt] at h

/-- A step that faults: no step exists, or the fetch, the decoding or the instruction raised (R102, R206). -/
theorem step_fault {s : State} {f : Fault} (h : step s = .fault f) :
    (∃ r, s.run = .faulted r ∧ f = .noStep r) ∨
    s.run = .running ∧
      ((∃ k, s.enter.fetch s.nextFetch = .error k ∧ raise k s.enter = .fault f) ∨
       (∃ w e, s.enter.fetch s.nextFetch = .ok w ∧ decode w = .error e ∧
          raise (.unrecognizedInstruction w) s.enter = .fault f) ∨
       ∃ w i, s.enter.fetch s.nextFetch = .ok w ∧ decode w = .ok i ∧ exec i s.enter = .fault f) := by
  unfold step at h
  split at h
  · next r hr => exact .inl ⟨r, hr, (Host.Outcome.fault.inj h).symm⟩
  · next hr =>
    refine .inr ⟨hr, ?_⟩
    split at h
    · next k hk => exact .inl ⟨k, hk, h⟩
    · next w hw =>
      split at h
      · next i hi => exact .inr (.inr ⟨w, i, hw, hi, h⟩)
      · next e he => exact .inr (.inl ⟨w, e, hw, he, h⟩)

/-- Fetching sees the same bytes after the first two phases. -/
@[simp] theorem State.enter_fetch (s : State) (a : Nat) : s.enter.fetch a = s.fetch a := State.fetch_congr rfl a

/-- After phase 2 the next fetch address is not PC: PC is A itself (R25, R100). -/
theorem State.enter_pc_toNat {s : State} (h : s.nextFetch < 65536) : s.enter.pc.toNat = s.nextFetch := by
  simp [BitVec.toNat_ofNat, Nat.mod_eq_of_lt h]

end Sys2Proof.Machine
end

