-- ==== Sys2Proof/Laws/Frame.lean ====
section
/-! SUPPORT. The frame of each update of the state, and how frames compose, so that an instruction's frame is read off the
updates it makes. -/

namespace Sys2Proof.Machine

theorem Frame.refl (regs : List Reg) (parts : List Part) (cells : Nat → Prop) (s : State) :
    Frame regs parts cells s s :=
  ⟨fun _ _ => rfl, fun _ => rfl, fun _ => ⟨rfl, rfl⟩, fun _ => ⟨rfl, rfl⟩, fun _ => rfl, fun _ => rfl, fun _ => rfl,
    fun _ _ => rfl, rfl, rfl, rfl, rfl, rfl⟩

theorem Frame.trans {regs : List Reg} {parts : List Part} {cells : Nat → Prop} {s t u : State}
    (h : Frame regs parts cells s t) (g : Frame regs parts cells t u) : Frame regs parts cells s u where
  regs r hr := (g.regs r hr).trans (h.regs r hr)
  index hp := (g.index hp).trans (h.index hp)
  control hp := ⟨(g.control hp).1.trans (h.control hp).1, (g.control hp).2.trans (h.control hp).2⟩
  stack hp := ⟨(g.stack hp).1.trans (h.stack hp).1, (g.stack hp).2.trans (h.stack hp).2⟩
  delay hp := (g.delay hp).trans (h.delay hp)
  sound hp := (g.sound hp).trans (h.sound hp)
  screen hp := (g.screen hp).trans (h.screen hp)
  memory a ha := (g.memory a ha).trans (h.memory a ha)
  run := g.run.trans h.run
  config := g.config.trans h.config
  inputs := ⟨g.inputs.1.trans h.inputs.1, g.inputs.2.1.trans h.inputs.2.1, g.inputs.2.2.trans h.inputs.2.2⟩

/-- A write to one register. -/
theorem Frame.setV {regs : List Reg} {r : Reg} (hr : r ∈ regs) (parts : List Part) (cells : Nat → Prop) (s : State)
    (b : Byte) : Frame regs parts cells s (s.setV r b) where
  regs _ hx := s.getV_setV_other b fun e => hx (e ▸ hr)
  index _ := rfl
  control _ := ⟨rfl, rfl⟩
  stack _ := ⟨rfl, rfl⟩
  delay _ := rfl
  sound _ := rfl
  screen _ := rfl
  memory _ _ := rfl
  run := rfl
  config := rfl
  inputs := ⟨rfl, rfl, rfl⟩

/-- A change of the register file that leaves the registers outside a list. -/
theorem Frame.ofRegs {regs : List Reg} {s t : State} (ht : t = { s with v := t.v })
    (h : ∀ r, r ∉ regs → t.getV r = s.getV r) (parts : List Part) (cells : Nat → Prop) :
    Frame regs parts cells s t where
  regs := h
  index _ := by rw [ht]
  control _ := by rw [ht]; exact ⟨rfl, rfl⟩
  stack _ := by rw [ht]; exact ⟨rfl, rfl⟩
  delay _ := by rw [ht]
  sound _ := by rw [ht]
  screen _ := by rw [ht]
  memory _ _ := by rw [ht]; rfl
  run := by rw [ht]
  config := by rw [ht]
  inputs := by rw [ht]; exact ⟨rfl, rfl, rfl⟩

/-- A write to I. -/
theorem Frame.setI (regs : List Reg) {parts : List Part} (hp : Part.index ∈ parts) (cells : Nat → Prop) (s : State)
    (w : Word) : Frame regs parts cells s (s.setI w) :=
  ⟨fun _ _ => rfl, fun h => absurd hp h, fun _ => ⟨rfl, rfl⟩, fun _ => ⟨rfl, rfl⟩, fun _ => rfl, fun _ => rfl,
    fun _ => rfl, fun _ _ => rfl, rfl, rfl, rfl, rfl, rfl⟩

/-- A control transfer. -/
theorem Frame.transfer (regs : List Reg) {parts : List Part} (hp : Part.control ∈ parts) (cells : Nat → Prop)
    (s : State) (w : Word) : Frame regs parts cells s (s.transfer w) :=
  ⟨fun _ _ => rfl, fun _ => rfl, fun h => absurd hp h, fun _ => ⟨rfl, rfl⟩, fun _ => rfl, fun _ => rfl,
    fun _ => rfl, fun _ _ => rfl, rfl, rfl, rfl, rfl, rfl⟩

/-- A push. -/
theorem Frame.pushAt (regs : List Reg) {parts : List Part} (hp : Part.stack ∈ parts) (cells : Nat → Prop)
    (s : State) (k : Fin 16) (w : Word) : Frame regs parts cells s (s.pushAt k w) :=
  ⟨fun _ _ => rfl, fun _ => rfl, fun _ => ⟨rfl, rfl⟩, fun h => absurd hp h, fun _ => rfl, fun _ => rfl,
    fun _ => rfl, fun _ _ => rfl, rfl, rfl, rfl, rfl, rfl⟩

/-- A pop. -/
theorem Frame.dropTop (regs : List Reg) {parts : List Part} (hp : Part.stack ∈ parts) (cells : Nat → Prop)
    (s : State) (k : Fin 16) : Frame regs parts cells s (s.dropTop k) :=
  ⟨fun _ _ => rfl, fun _ => rfl, fun _ => ⟨rfl, rfl⟩, fun h => absurd hp h, fun _ => rfl, fun _ => rfl,
    fun _ => rfl, fun _ _ => rfl, rfl, rfl, rfl, rfl, rfl⟩

/-- A write to DT. -/
theorem Frame.setDT (regs : List Reg) {parts : List Part} (hp : Part.delay ∈ parts) (cells : Nat → Prop) (s : State)
    (b : Byte) : Frame regs parts cells s (s.setDT b) :=
  ⟨fun _ _ => rfl, fun _ => rfl, fun _ => ⟨rfl, rfl⟩, fun _ => ⟨rfl, rfl⟩, fun h => absurd hp h, fun _ => rfl,
    fun _ => rfl, fun _ _ => rfl, rfl, rfl, rfl, rfl, rfl⟩

/-- A write to ST. -/
theorem Frame.setST (regs : List Reg) {parts : List Part} (hp : Part.sound ∈ parts) (cells : Nat → Prop) (s : State)
    (b : Byte) : Frame regs parts cells s (s.setST b) :=
  ⟨fun _ _ => rfl, fun _ => rfl, fun _ => ⟨rfl, rfl⟩, fun _ => ⟨rfl, rfl⟩, fun _ => rfl, fun h => absurd hp h,
    fun _ => rfl, fun _ _ => rfl, rfl, rfl, rfl, rfl, rfl⟩

/-- A change of the screen. -/
theorem Frame.setFb (regs : List Reg) {parts : List Part} (hp : Part.screen ∈ parts) (cells : Nat → Prop) (s : State)
    (f : Framebuffer) : Frame regs parts cells s (s.setFb f) :=
  ⟨fun _ _ => rfl, fun _ => rfl, fun _ => ⟨rfl, rfl⟩, fun _ => ⟨rfl, rfl⟩, fun _ => rfl, fun _ => rfl,
    fun h => absurd hp h, fun _ _ => rfl, rfl, rfl, rfl, rfl, rfl⟩

/-- A write of a list of bytes to memory. -/
theorem Frame.writeList (regs : List Reg) (parts : List Part) (s : State) (a : Nat) (bs : List Byte) :
    Frame regs parts (cellsFrom a bs.length) s (s.setMem (s.mem.writeList a bs)) where
  regs _ _ := rfl
  index _ := rfl
  control _ := ⟨rfl, rfl⟩
  stack _ := ⟨rfl, rfl⟩
  delay _ := rfl
  sound _ := rfl
  screen _ := rfl
  memory c hc := by
    have hc' : ¬(a ≤ c ∧ c < a + bs.length) := hc
    simp only [State.memRead, State.setMem_mem, Memory.read_writeList, hc', dif_neg, not_false_eq_true]
  run := rfl
  config := rfl
  inputs := ⟨rfl, rfl, rfl⟩

/-- A byte of a written list reads as that byte. -/
theorem State.memRead_writeList (s : State) (a k : Nat) (bs : List Byte) (hk : k < bs.length)
    (ha : a + k < Config.memSize) : (s.setMem (s.mem.writeList a bs)).memRead (a + k) = .ok bs[k] := by
  rw [memRead_lt _ ha, setMem_mem, Memory.read_writeList, dif_pos ⟨by omega, by omega⟩]
  simp

/-- The result and the flag write VF last (R133). -/
theorem State.setResultAndFlag_getV (s : State) (x r : Reg) (b : Byte) (f : Bool) :
    (s.setResultAndFlag x b f).getV r = if r = VF then flagByte f else if r = x then b else s.getV r := by
  simp only [setResultAndFlag, getV_setV, eq_comm (a := r)]

theorem Frame.setResultAndFlag (parts : List Part) (cells : Nat → Prop) (s : State) (x : Reg) (b : Byte) (f : Bool) :
    Frame [x, 15] parts cells s (s.setResultAndFlag x b f) :=
  (Frame.setV (by simp) parts cells s b).trans (Frame.setV (r := VF) (by simp [VF]) parts cells _ _)

/-- Under either value of `SHL_FLAG_XOR`. -/
theorem Frame.setResultAndShlFlag (parts : List Part) (cells : Nat → Prop) (s : State) (x : Reg) (b : Byte) (f : Bool) :
    Frame [x, 15] parts cells s (s.setResultAndShlFlag x b f) := by
  unfold State.setResultAndShlFlag
  split
  · exact (Frame.setV (by simp) parts cells s b).trans (Frame.setV (r := VF) (by simp [VF]) parts cells _ _)
  · exact Frame.setResultAndFlag parts cells s x b f

/-- A flag as a number. -/
theorem flagByte_toNat (b : Bool) : (flagByte b).toNat = if b then 1 else 0 := by cases b <;> rfl

end Sys2Proof.Machine
end

