-- ==== Sys2Proof/Laws/Exec.lean ====
section
/-! SUPPORT. What each instruction that can raise does, said once, and that every instruction either answers a next state
of the same run status or raises with its own address. -/

namespace Sys2Proof.Machine

/-- RET pops or underflows (R104). -/
theorem execRet_cases (s : State) :
    (s.sp = none ∧ exec .ret s = raise .stackUnderflow s) ∨
    ∃ k, s.sp = some k ∧ exec .ret s = .next ((s.dropTop k).transfer s.stack[k]) := by
  rcases s.pop_cases with ⟨h, hp⟩ | ⟨k, h, hp⟩
  · exact .inl ⟨h, by simp only [exec, execRet, hp]⟩
  · exact .inr ⟨k, h, by simp only [exec, execRet, hp]⟩

/-- CALL pushes or overflows (R106). -/
theorem execCall_cases (nnn : Addr12) (s : State) :
    (s.sp = some 15 ∧ exec (.call nnn) s = raise .stackOverflow s) ∨
    ∃ k, s.nextSlot = some k ∧ (k : Int) = s.spValue + 1 ∧
      exec (.call nnn) s = .next ((s.pushAt k (s.pc + 2)).transfer (zext16 nnn)) := by
  rcases s.push_cases (s.pc + 2) with ⟨h, hp⟩ | ⟨k, h, hk, hp⟩
  · exact .inl ⟨h, by simp only [exec, execCall, hp]⟩
  · exact .inr ⟨k, h, hk, by simp only [exec, execCall, hp]⟩

/-- Either every one of `n` addresses from `a` on is in the memory, or there is a first that is not. -/
theorem inRange_or_first (a n : Nat) :
    (∀ k < n, a + k < Config.memSize) ∨
    ∃ k < n, (∀ j < k, a + j < Config.memSize) ∧ Config.memSize ≤ a + k := by
  by_cases h : ∀ k < n, a + k < Config.memSize
  · exact .inl h
  · have hx : ∃ k, k < n ∧ Config.memSize ≤ a + k := by
      by_contra hc
      exact h fun k hk => Nat.lt_of_not_le fun hle => hc ⟨k, hk, hle⟩
    exact .inr ⟨Nat.find hx, (Nat.find_spec hx).1,
      fun j hj => Nat.lt_of_not_le fun hle => Nat.find_min hx hj ⟨hj.trans (Nat.find_spec hx).1, hle⟩,
      (Nat.find_spec hx).2⟩

/-- DRW reads all its rows and blits, or raises at the first row out of range and changes nothing (R146). -/
theorem execDrw_cases (x y : Reg) (n : Nibble) (s : State) :
    ((∀ k < n.toNat, s.i.toNat + k < Config.memSize) ∧ ∃ b,
      b = blitSprite ((List.range n.toNat).map fun k => s.mem.read (s.i.toNat + k)) (s.getV x).toNat (s.getV y).toNat s.fb ∧
      exec (.drw x y n) s = .next ((s.setFb b.fb).setV VF (flagByte b.collided))) ∨
    ∃ k < n.toNat, (∀ j < k, s.i.toNat + j < Config.memSize) ∧ Config.memSize ≤ s.i.toNat + k ∧
      exec (.drw x y n) s = raise (.outOfRangeMem (s.i.toNat + k)) s := by
  rcases inRange_or_first s.i.toNat n.toNat with h | ⟨k, hk, hin, hout⟩
  · exact .inl ⟨h, _, rfl, by simp [exec, execDrw, State.ea, State.memReads_ok s _ _ h]⟩
  · exact .inr ⟨k, hk, hin, hout, by simp [exec, execDrw, State.ea, State.memReads_error s _ _ k hk hin hout]⟩

/-- LD Vx, [I] loads every register, or the ones before the first byte out of range (R187, R204). -/
theorem execLoadRegs_cases (x : Reg) (s : State) :
    ((∀ k ≤ x.val, s.i.toNat + k < Config.memSize) ∧ ∃ t, exec (.loadRegs x) s = .next t ∧ t = { s with v := t.v } ∧
      (∀ r, x < r → t.getV r = s.getV r) ∧ ∀ r, r ≤ x → t.getV r = s.mem.read (s.i.toNat + r.val)) ∨
    ∃ k ≤ x.val, (∀ j < k, s.i.toNat + j < Config.memSize) ∧ Config.memSize ≤ s.i.toNat + k ∧
      ∃ t, exec (.loadRegs x) s = raise (.outOfRangeMem (s.i.toNat + k)) t ∧ t = { s with v := t.v } ∧
        (∀ r : Reg, k ≤ r.val → t.getV r = s.getV r) ∧
        ∀ r : Reg, r.val < k → t.getV r = s.mem.read (s.i.toNat + r.val) := by
  have hx := x.isLt
  have hget : ∀ (r : Reg) (h : r.val < (regsUpTo x).length), (regsUpTo x)[r.val] = r := fun r h => by
    rw [regsUpTo_getElem]
    ext
    simp
  rcases inRange_or_first s.i.toNat (x.val + 1) with h | ⟨k, hk, hin, hout⟩
  · obtain ⟨t, ht, hf, ho, hl⟩ := loadsV_ok s.i.toNat (regsUpTo x) s (regsUpTo_nodup x)
      (by rw [regsUpTo_length]; exact h)
    refine .inl ⟨fun k hk => h k (by omega), t, by simpa [exec, execLoadRegs, State.ea] using ht, hf,
      fun r hr => ho r fun hm => ?_, fun r hr => ?_⟩
    · have := mem_regsUpTo.1 hm
      exact absurd hr (by simp only [Fin.lt_def]; omega)
    · have hlen : r.val < (regsUpTo x).length := by rw [regsUpTo_length]; exact Nat.lt_succ_of_le hr
      rw [← hl r.val hlen, hget r hlen]
  · obtain ⟨t, ht, hf, ho, hl⟩ := loadsV_fault s.i.toNat (regsUpTo x) s (regsUpTo_nodup x) k
      (by rw [regsUpTo_length]; exact hk) hin hout
    refine .inr ⟨k, by omega, hin, hout, t, by simpa [exec, execLoadRegs, State.ea] using ht, hf,
      fun r hr => ho r fun hm => ?_, fun r hr => ?_⟩
    · obtain ⟨j, hj, he⟩ := List.getElem_of_mem hm
      rw [List.getElem_take, regsUpTo_getElem] at he
      have hjk : j < k := by
        rw [List.length_take] at hj
        omega
      have := congrArg Fin.val he
      simp only [Fin.val_ofNat] at this
      omega
    · have hlen : r.val < (regsUpTo x).length := by rw [regsUpTo_length]; omega
      rw [← hl r.val hlen hr, hget r hlen]

/-- The bytes LD [I], Vx stores: Vk at I + k (R186). -/
theorem storeRegs_byte (x : Reg) (s : State) (r : Reg) (h : r.val < ((regsUpTo x).map s.getV).length) :
    ((regsUpTo x).map s.getV)[r.val] = s.getV r := by
  rw [List.getElem_map, regsUpTo_getElem]
  congr 1
  ext
  simp

/-- Every instruction answers a next state of the same run status, or raises with its own address as pc (R200)
and the same switches (R36). -/
theorem exec_next_or_raise (i : Instr) (s : State) :
    (∃ t, exec i s = .next t ∧ t.run = s.run) ∨ ∃ k t, exec i s = raise k t ∧ t.pc = s.pc ∧ t.switches = s.switches := by
  have writes : ∀ a bs, (∃ t, memWrites a bs s = .next t ∧ t.run = s.run) ∨
      ∃ k t, memWrites a bs s = raise k t ∧ t.pc = s.pc ∧ t.switches = s.switches := by
    intro a bs
    rcases memWrites_cases a bs s with ⟨h, -⟩ | ⟨k, -, -, -, h⟩
    · exact .inl ⟨_, h, rfl⟩
    · exact .inr ⟨_, _, h, rfl, rfl⟩
  have skips : ∀ b, (s.skipIf b).run = s.run := fun b => by cases b <;> rfl
  cases i
  case ret =>
    rcases execRet_cases s with ⟨-, h⟩ | ⟨k, -, h⟩
    · exact .inr ⟨_, s, h, rfl, rfl⟩
    · exact .inl ⟨_, h, rfl⟩
  case call nnn =>
    rcases execCall_cases nnn s with ⟨-, h⟩ | ⟨k, -, -, h⟩
    · exact .inr ⟨_, s, h, rfl, rfl⟩
    · exact .inl ⟨_, h, rfl⟩
  case drw x y n =>
    rcases execDrw_cases x y n s with ⟨-, b, -, h⟩ | ⟨k, -, -, -, h⟩
    · exact .inl ⟨_, h, rfl⟩
    · exact .inr ⟨_, s, h, rfl, rfl⟩
  case loadRegs x =>
    rcases execLoadRegs_cases x s with ⟨-, t, h, hf, -⟩ | ⟨k, -, -, -, t, h, hf, -⟩
    · exact .inl ⟨t, h, by rw [hf]⟩
    · exact .inr ⟨_, t, h, by rw [hf], by rw [hf]⟩
  case ldB x => exact writes _ _
  case storeRegs x => exact writes _ _
  case seImm x kk => exact .inl ⟨_, rfl, skips _⟩
  case sneImm x kk => exact .inl ⟨_, rfl, skips _⟩
  case seReg x y => exact .inl ⟨_, rfl, skips _⟩
  case sneReg x y => exact .inl ⟨_, rfl, skips _⟩
  case skp x => exact .inl ⟨_, rfl, skips _⟩
  case sknp x => exact .inl ⟨_, rfl, skips _⟩
  case shl x y => exact .inl ⟨_, rfl, (Frame.setResultAndShlFlag [] noCells s x _ _).run⟩
  case ldVxK x => exact .inl ⟨_, rfl, by split <;> rfl⟩
  all_goals exact .inl ⟨_, rfl, rfl⟩

/-- A skip, taken or not, touches control alone. -/
theorem Frame.skipIf (s : State) (b : Bool) : Frame [] [.control] noCells s (s.skipIf b) := by
  cases b
  · exact Frame.refl _ _ _ _
  · exact Frame.transfer _ (by simp) _ _ _

/-- The frame of every instruction. -/
theorem exec_frame (i : Instr) (s t : State) (h : exec i s = .next t) :
    Frame (destinations i) (touches i) (stores s i) s t := by
  cases i
  case ldB x =>
    rcases memWrites_cases (s.ea 0) (bcdDigits (s.getV x)) s with ⟨e, -⟩ | ⟨k, hk, -, hout, e⟩
    all_goals replace h : memWrites _ _ s = _ := h; rw [e] at h; cases h
    exact Frame.writeList _ _ s _ (bcdDigits (s.getV x))
  case storeRegs x =>
    rcases memWrites_cases (s.ea 0) ((regsUpTo x).map s.getV) s with ⟨e, -⟩ | ⟨k, hk, -, hout, e⟩
    all_goals replace h : memWrites _ _ s = _ := h; rw [e] at h; cases h
    have f := Frame.writeList (destinations (.storeRegs x)) (touches (.storeRegs x)) s (s.ea 0)
      ((regsUpTo x).map s.getV)
    rw [List.length_map, regsUpTo_length] at f
    exact f
  case ret =>
    rcases execRet_cases s with ⟨hs, e⟩ | ⟨k, -, e⟩ <;> rw [e] at h <;> cases h
    exact (Frame.dropTop _ (by simp [touches]) _ _ _).trans (Frame.transfer _ (by simp [touches]) _ _ _)
  case call nnn =>
    rcases execCall_cases nnn s with ⟨hs, e⟩ | ⟨k, -, -, e⟩ <;> rw [e] at h <;> cases h
    exact (Frame.pushAt _ (by simp [touches]) _ _ _ _).trans (Frame.transfer _ (by simp [touches]) _ _ _)
  case drw x y n =>
    rcases execDrw_cases x y n s with ⟨-, b, -, e⟩ | ⟨k, hk, -, hout, e⟩ <;> rw [e] at h <;> cases h
    exact (Frame.setFb _ (by simp [touches]) _ _ _).trans (Frame.setV (by simp [destinations]) _ _ _ _)
  case loadRegs x =>
    rcases execLoadRegs_cases x s with ⟨-, u, e, hf, ho, -⟩ | ⟨k, hk, -, hout, u, e, hf, -⟩ <;> rw [e] at h <;> cases h
    refine Frame.ofRegs hf (fun r hr => ho r ?_) _ _
    simpa [destinations, lowRegs] using hr
  case ldVxK x =>
    cases h
    split
    · exact Frame.transfer _ (by simp [touches, mayTransfer]) _ _ _
    · exact Frame.setV (by simp [destinations]) _ _ _ _
  all_goals cases h
  all_goals first
    | exact Frame.skipIf _ _
    | exact Frame.setV (by simp [destinations]) _ _ _ _
    | exact Frame.transfer _ (by simp [touches, mayTransfer]) _ _ _
    | exact Frame.setI _ (by simp [touches]) _ _ _
    | exact Frame.setFb _ (by simp [touches]) _ _ _
    | exact Frame.setDT _ (by simp [touches]) _ _ _
    | exact Frame.setST _ (by simp [touches]) _ _ _
    | exact Frame.setResultAndFlag _ _ _ _ _ _
    | exact Frame.setResultAndShlFlag _ _ _ _ _ _

end Sys2Proof.Machine
end

