-- ==== Sys2Proof/Laws/Boot.lean ====
section
/-! SUPPORT. Everything loading an image can do, said once (20_memory.md R62). -/

namespace Sys2Proof.Machine

/-- An image that lies in the memory is written. -/
theorem loadFrom_ok (a : Nat) (bs : List Byte) (s : State) (h : ∀ k < bs.length, a + k < Config.memSize) :
    loadFrom a bs s = .next (s.setMem (s.mem.writeList a bs)) := by
  induction bs generalizing a s with
  | nil => rfl
  | cons b bs ih =>
    have h0 : a < Config.memSize := by simpa using h 0 (by simp)
    have hs := ih (a + 1) (s.setMem (s.mem.write a b)) fun k hk => by
      have := h (k + 1) (by simpa using hk)
      omega
    simp only [loadFrom, State.memWrite_lt s h0, hs]
    rfl

/-- An image whose byte k is the first outside the memory faults there, with the bytes before it written. -/
theorem loadFrom_fault (a : Nat) (bs : List Byte) (s : State) (k : Nat) (hk : k < bs.length)
    (hin : ∀ j < k, a + j < Config.memSize) (hout : Config.memSize ≤ a + k) :
    loadFrom a bs s = raiseAt 0x200 (.outOfRangeMem (a + k)) (s.setMem (s.mem.writeList a (bs.take k))) := by
  induction bs generalizing a s k with
  | nil => simp at hk
  | cons b bs ih =>
    cases k with
    | zero =>
      simp [loadFrom, State.memWrite_ge s (by simpa using hout), Memory.writeList, State.setMem, Config.loadOffset]
    | succ k =>
      have h0 : a < Config.memSize := by simpa using hin 0 (by omega)
      have hs := ih (a + 1) (s.setMem (s.mem.write a b)) k (by simpa using hk)
        (fun j hj => by have := hin (j + 1) (by omega); omega) (by omega)
      simp only [loadFrom, State.memWrite_lt s h0, hs, Nat.add_assoc, Nat.add_comm 1 k]
      rfl

end Sys2Proof.Machine
end

