-- ==== Sys2Proof/Laws/Decode.lean ====
section
/-! SUPPORT. The fields of a word built in each format (30_encoding.md R71, R72), and words as bytes (R70). -/

namespace Sys2Proof

@[simp] theorem fieldC_wordA (c : Nibble) (a : Addr12) : fieldC (wordA c a) = c := by
  apply BitVec.eq_of_getLsbD_eq
  intro k hk
  interval_cases k <;> simp [fieldC, wordA]

@[simp] theorem fieldNnn_wordA (c : Nibble) (a : Addr12) : fieldNnn (wordA c a) = a := by
  apply BitVec.eq_of_getLsbD_eq
  intro k hk
  interval_cases k <;> simp [fieldNnn, wordA]

@[simp] theorem fieldC_wordXK (c : Nibble) (x : Reg) (kk : Byte) : fieldC (wordXK c x kk) = c := by
  apply BitVec.eq_of_getLsbD_eq
  intro k hk
  interval_cases k <;> simp [fieldC, wordXK]

@[simp] theorem fieldX_wordXK (c : Nibble) (x : Reg) (kk : Byte) : fieldX (wordXK c x kk) = x := by
  have : (wordXK c x kk).extractLsb' 8 4 = (BitVec.ofFin x : Nibble) := by
    apply BitVec.eq_of_getLsbD_eq
    intro k hk
    interval_cases k <;> simp [wordXK]
  simp [fieldX, this]

@[simp] theorem fieldKk_wordXK (c : Nibble) (x : Reg) (kk : Byte) : fieldKk (wordXK c x kk) = kk := by
  apply BitVec.eq_of_getLsbD_eq
  intro k hk
  interval_cases k <;> simp [fieldKk, wordXK]

@[simp] theorem fieldC_wordXYN (c : Nibble) (x y : Reg) (n : Nibble) : fieldC (wordXYN c x y n) = c := by
  apply BitVec.eq_of_getLsbD_eq
  intro k hk
  interval_cases k <;> simp [fieldC, wordXYN]

@[simp] theorem fieldX_wordXYN (c : Nibble) (x y : Reg) (n : Nibble) : fieldX (wordXYN c x y n) = x := by
  have : (wordXYN c x y n).extractLsb' 8 4 = (BitVec.ofFin x : Nibble) := by
    apply BitVec.eq_of_getLsbD_eq
    intro k hk
    interval_cases k <;> simp [wordXYN]
  simp [fieldX, this]

@[simp] theorem fieldY_wordXYN (c : Nibble) (x y : Reg) (n : Nibble) : fieldY (wordXYN c x y n) = y := by
  have : (wordXYN c x y n).extractLsb' 4 4 = (BitVec.ofFin y : Nibble) := by
    apply BitVec.eq_of_getLsbD_eq
    intro k hk
    interval_cases k <;> simp [wordXYN]
  simp [fieldY, this]

@[simp] theorem fieldN_wordXYN (c : Nibble) (x y : Reg) (n : Nibble) : fieldN (wordXYN c x y n) = n := by
  apply BitVec.eq_of_getLsbD_eq
  intro k hk
  interval_cases k <;> simp [fieldN, wordXYN]

/-- The two bytes of a word make it up again. -/
@[simp] theorem wordOfBytes_bytes (w : Word) : wordOfBytes (highByte w) (lowByte w) = w := by
  apply BitVec.eq_of_getLsbD_eq
  intro k hk
  interval_cases k <;> simp [wordOfBytes, highByte, lowByte]

/-- A fetched word as the spec writes it: the high byte times 256, plus the low byte (R54). -/
theorem wordOfBytes_toNat (high low : Byte) : (wordOfBytes high low).toNat = high.toNat * 256 + low.toNat := by
  have hh := high.isLt
  have hl := low.isLt
  have h1 : (high.setWidth 16 <<< 8 : Word).toNat = high.toNat <<< 8 := by
    simp only [BitVec.toNat_shiftLeft, BitVec.toNat_setWidth, Nat.shiftLeft_eq]
    omega
  have h2 : (low.setWidth 16 : Word).toNat = low.toNat := by
    simp only [BitVec.toNat_setWidth]
    omega
  rw [wordOfBytes, BitVec.toNat_or, h1, h2, ← Nat.shiftLeft_add_eq_or_of_lt hl, Nat.shiftLeft_eq]

end Sys2Proof
end

