-- ==== Sys2Proof/Laws/PerInstr.lean ====
section
/-! SUPPORT. Statements about every instruction, one lemma for each constructor. Family RowPattern: the word of an
instruction has the fixed digits of its own row of spec/opcode_table.json (30_encoding.md R75). -/

namespace Sys2Proof.Laws.RowPattern

/-- The `mask` column of spec/opcode_table.json. -/
def rowMask : Instr → Word
  | .cls | .ret => 0xFFFF
  | .jp _ | .call _ | .ldI _ | .jpV0 _ => 0xF000
  | .seImm _ _ | .sneImm _ _ | .ldImm _ _ | .addImm _ _ | .rnd _ _ => 0xF000
  | .drw _ _ _ => 0xF000
  | .seReg _ _ | .sneReg _ _ | .ldReg _ _ | .or _ _ | .and _ _ | .xor _ _ => 0xF00F
  | .addReg _ _ | .sub _ _ | .shr _ _ | .subn _ _ | .shl _ _ => 0xF00F
  | .skp _ | .sknp _ | .ldVxDT _ | .ldVxK _ | .ldDTVx _ | .ldSTVx _ => 0xF0FF
  | .addI _ | .ldF _ | .ldB _ | .storeRegs _ | .loadRegs _ => 0xF0FF

/-- The `match` column of spec/opcode_table.json. -/
def rowMatch : Instr → Word
  | .cls => 0x00E0
  | .ret => 0x00EE
  | .jp _ => 0x1000
  | .call _ => 0x2000
  | .seImm _ _ => 0x3000
  | .sneImm _ _ => 0x4000
  | .seReg _ _ => 0x5000
  | .ldImm _ _ => 0x6000
  | .addImm _ _ => 0x7000
  | .ldReg _ _ => 0x8000
  | .or _ _ => 0x8001
  | .and _ _ => 0x8002
  | .xor _ _ => 0x8003
  | .addReg _ _ => 0x8004
  | .sub _ _ => 0x8005
  | .shr _ _ => 0x8006
  | .subn _ _ => 0x8007
  | .shl _ _ => 0x800E
  | .sneReg _ _ => 0x9000
  | .ldI _ => 0xA000
  | .jpV0 _ => 0xB000
  | .rnd _ _ => 0xC000
  | .drw _ _ _ => 0xD000
  | .skp _ => 0xE09E
  | .sknp _ => 0xE0A1
  | .ldVxDT _ => 0xF007
  | .ldVxK _ => 0xF00A
  | .ldDTVx _ => 0xF015
  | .ldSTVx _ => 0xF018
  | .addI _ => 0xF01E
  | .ldF _ => 0xF029
  | .ldB _ => 0xF033
  | .storeRegs _ => 0xF055
  | .loadRegs _ => 0xF065

/-- The word has its row's fixed digits. -/
def Statement (i : Instr) : Prop := encode i &&& rowMask i = rowMatch i

theorem wordA_mask (c : Nibble) (a : Addr12) : wordA c a &&& 0xF000 = wordA c 0 := by
  apply BitVec.eq_of_getLsbD_eq
  intro k hk
  interval_cases k <;> simp [wordA]

theorem wordXK_mask (c : Nibble) (x : Reg) (kk : Byte) : wordXK c x kk &&& 0xF000 = wordXK c 0 0 := by
  apply BitVec.eq_of_getLsbD_eq
  intro k hk
  interval_cases k <;> simp [wordXK]

theorem wordXS_mask (c : Nibble) (x : Reg) (kk : Byte) : wordXK c x kk &&& 0xF0FF = wordXK c 0 kk := by
  apply BitVec.eq_of_getLsbD_eq
  intro k hk
  interval_cases k <;> simp [wordXK]

theorem wordXYN_mask (c : Nibble) (x y : Reg) (n : Nibble) : wordXYN c x y n &&& 0xF000 = wordXYN c 0 0 0 := by
  apply BitVec.eq_of_getLsbD_eq
  intro k hk
  interval_cases k <;> simp [wordXYN]

theorem wordXYS_mask (c : Nibble) (x y : Reg) (n : Nibble) : wordXYN c x y n &&& 0xF00F = wordXYN c 0 0 n := by
  apply BitVec.eq_of_getLsbD_eq
  intro k hk
  interval_cases k <;> simp [wordXYN]

theorem cls : Statement (.cls) := rfl
theorem ret : Statement (.ret) := rfl
theorem jp (nnn : Addr12) : Statement (.jp nnn) := (wordA_mask _ _).trans rfl
theorem call (nnn : Addr12) : Statement (.call nnn) := (wordA_mask _ _).trans rfl
theorem seImm (x : Reg) (kk : Byte) : Statement (.seImm x kk) := (wordXK_mask _ _ _).trans rfl
theorem sneImm (x : Reg) (kk : Byte) : Statement (.sneImm x kk) := (wordXK_mask _ _ _).trans rfl
theorem seReg (x y : Reg) : Statement (.seReg x y) := (wordXYS_mask _ _ _ _).trans rfl
theorem ldImm (x : Reg) (kk : Byte) : Statement (.ldImm x kk) := (wordXK_mask _ _ _).trans rfl
theorem addImm (x : Reg) (kk : Byte) : Statement (.addImm x kk) := (wordXK_mask _ _ _).trans rfl
theorem ldReg (x y : Reg) : Statement (.ldReg x y) := (wordXYS_mask _ _ _ _).trans rfl
theorem or (x y : Reg) : Statement (.or x y) := (wordXYS_mask _ _ _ _).trans rfl
theorem and (x y : Reg) : Statement (.and x y) := (wordXYS_mask _ _ _ _).trans rfl
theorem xor (x y : Reg) : Statement (.xor x y) := (wordXYS_mask _ _ _ _).trans rfl
theorem addReg (x y : Reg) : Statement (.addReg x y) := (wordXYS_mask _ _ _ _).trans rfl
theorem sub (x y : Reg) : Statement (.sub x y) := (wordXYS_mask _ _ _ _).trans rfl
theorem shr (x y : Reg) : Statement (.shr x y) := (wordXYS_mask _ _ _ _).trans rfl
theorem subn (x y : Reg) : Statement (.subn x y) := (wordXYS_mask _ _ _ _).trans rfl
theorem shl (x y : Reg) : Statement (.shl x y) := (wordXYS_mask _ _ _ _).trans rfl
theorem sneReg (x y : Reg) : Statement (.sneReg x y) := (wordXYS_mask _ _ _ _).trans rfl
theorem ldI (nnn : Addr12) : Statement (.ldI nnn) := (wordA_mask _ _).trans rfl
theorem jpV0 (nnn : Addr12) : Statement (.jpV0 nnn) := (wordA_mask _ _).trans rfl
theorem rnd (x : Reg) (kk : Byte) : Statement (.rnd x kk) := (wordXK_mask _ _ _).trans rfl
theorem drw (x y : Reg) (n : Nibble) : Statement (.drw x y n) := (wordXYN_mask _ _ _ _).trans rfl
theorem skp (x : Reg) : Statement (.skp x) := (wordXS_mask _ _ _).trans rfl
theorem sknp (x : Reg) : Statement (.sknp x) := (wordXS_mask _ _ _).trans rfl
theorem ldVxDT (x : Reg) : Statement (.ldVxDT x) := (wordXS_mask _ _ _).trans rfl
theorem ldVxK (x : Reg) : Statement (.ldVxK x) := (wordXS_mask _ _ _).trans rfl
theorem ldDTVx (x : Reg) : Statement (.ldDTVx x) := (wordXS_mask _ _ _).trans rfl
theorem ldSTVx (x : Reg) : Statement (.ldSTVx x) := (wordXS_mask _ _ _).trans rfl
theorem addI (x : Reg) : Statement (.addI x) := (wordXS_mask _ _ _).trans rfl
theorem ldF (x : Reg) : Statement (.ldF x) := (wordXS_mask _ _ _).trans rfl
theorem ldB (x : Reg) : Statement (.ldB x) := (wordXS_mask _ _ _).trans rfl
theorem storeRegs (x : Reg) : Statement (.storeRegs x) := (wordXS_mask _ _ _).trans rfl
theorem loadRegs (x : Reg) : Statement (.loadRegs x) := (wordXS_mask _ _ _).trans rfl

end Sys2Proof.Laws.RowPattern
end

