-- ==== Sys2Proof/Machine/Assembler.lean ====
section
/-! DEFINITION. The assembler syntax of 30_encoding.md R85 and R86, as text: a mnemonic, then comma-separated operands; a
register is `V` and one hex digit; a number is decimal, or hex after `0x` or `#`; the special operands are `I`, `DT`,
`ST`, `K`, `F`, `B` and `[I]`. PRESUMED: the spec takes this spelling from general knowledge (GK2; log entry 30). What the
spelling leaves open (spaces, letter case, empty operands) is the model's choice (DESIGN CHOICE: log entry 33). No rule of
the machine depends on either. -/

namespace Sys2Proof.Machine

/-- The register digits of R85, each at its value. -/
def asmDigitChars : List Char := "0123456789ABCDEF".toList

/-- The value of a hex digit, in either case (log entry 33): its place among the sixteen. -/
def asmDigit (c : Char) : Option Nat := asmDigitChars.idxOf? c.toUpper

/-- The value of a run of digits in a base, after the digits already read. -/
def asmDigits (base acc : Nat) : List Char → Option Nat
  | [] => some acc
  | c :: cs =>
    match asmDigit c with
    | none => none
    | some d => if d < base then asmDigits base (acc * base + d) cs else none

/-- A number: decimal, or hex with a `0x` or `#` prefix, its `x` a small letter; leading zeros count for nothing (log entry
33). -/
def asmNumber : List Char → Option Nat
  | [] => none
  | '0' :: 'x' :: c :: cs => asmDigits 16 0 (c :: cs)
  | '#' :: c :: cs => asmDigits 16 0 (c :: cs)
  | c :: cs => asmDigits 10 0 (c :: cs)

/-- An operand. -/
def asmOperand : List Char → Option AsmOperand
  | ['V', c] => (asmDigit c).map .v
  | ['I'] => some .index
  | ['D', 'T'] => some .delay
  | ['S', 'T'] => some .sound
  | ['K'] => some .key
  | ['F'] => some .font
  | ['B'] => some .bcd
  | ['[', 'I', ']'] => some .atIndex
  | cs => (asmNumber cs).map .num

/-- A mnemonic word (the `mnemonic` column of R75). -/
def asmMnemonic : List Char → Option Mnemonic
  | ['C', 'L', 'S'] => some .cls
  | ['R', 'E', 'T'] => some .ret
  | ['J', 'P'] => some .jp
  | ['C', 'A', 'L', 'L'] => some .call
  | ['S', 'E'] => some .se
  | ['S', 'N', 'E'] => some .sne
  | ['L', 'D'] => some .ld
  | ['A', 'D', 'D'] => some .add
  | ['O', 'R'] => some .or
  | ['A', 'N', 'D'] => some .and
  | ['X', 'O', 'R'] => some .xor
  | ['S', 'U', 'B'] => some .sub
  | ['S', 'H', 'R'] => some .shr
  | ['S', 'U', 'B', 'N'] => some .subn
  | ['S', 'H', 'L'] => some .shl
  | ['R', 'N', 'D'] => some .rnd
  | ['D', 'R', 'W'] => some .drw
  | ['S', 'K', 'P'] => some .skp
  | ['S', 'K', 'N', 'P'] => some .sknp
  | _ => none

/-- The comma-separated pieces of a text, without their spaces; `piece` is the one being read, reversed. R85 says nothing
of spaces. DESIGN CHOICE (log entry 33): every space is dropped, one inside an operand too, so `V 0` reads as `V0` and
`JP 2 04` as `JP 204`. -/
def asmPieces (piece : List Char) : List Char → List (List Char)
  | [] => [piece.reverse]
  | ',' :: cs => piece.reverse :: asmPieces [] cs
  | ' ' :: cs => asmPieces piece cs
  | c :: cs => asmPieces (c :: piece) cs

/-- Every operand of a list, or none: an empty operand is no operand (log entry 33). -/
def asmOperands : List (List Char) → Option (List AsmOperand)
  | [] => some []
  | p :: ps =>
    match asmOperand p, asmOperands ps with
    | some o, some os => some (o :: os)
    | _, _ => none

/-- A line of assembly: the mnemonic ends at the first space; a line with nothing after it has no operands.
A line that begins with a space has no mnemonic (log entry 33). -/
def asmLine (cs : List Char) : Option AsmLine :=
  match asmMnemonic (cs.takeWhile (· ≠ ' ')), asmPieces [] (cs.dropWhile (· ≠ ' ')) with
  | some m, [[]] => some ⟨m, []⟩
  | some m, ps => (asmOperands ps).map (AsmLine.mk m)
  | none, _ => none

/-- The word a line of assembly stands for. -/
def assemble (cs : List Char) : Option Word :=
  match asmLine cs with
  | none => none
  | some l =>
    match l.check with
    | .ok i => some (encode i)
    | .error _ => none

end Sys2Proof.Machine
end

