-- ==== Sys2Proof/Tests/Slice0.lean ====
section
/-! SUPPORT. Tests: words written out from 30_encoding.md, refused terms, the vectors of 95_test_vectors.md (named by their
ids there), and a witness for the hypotheses of every statement. -/

namespace Sys2Proof.Tests

open Sys2Proof Sys2Proof.Machine

/-! Helpers -/

/-- A running machine in phase 4 of a step, at A = 0x300. -/
def base : State := { State.reset with pc := 0x300, advSuppress := false, inputs := [.quiet] }

/-- `base` with registers set. -/
def withV (rs : List (Reg × Byte)) (s : State := base) : State := rs.foldl (fun s r => s.setV r.1 r.2) s

/-- A state with bytes written from an address on. -/
def withBytes (a : Nat) (bs : List Byte) (s : State := base) : State := s.setMem (s.mem.writeList a bs)

/-- A state with a key sample. -/
def withKey (k : Option (Fin 16)) (s : State) : State := { s with inp := { s.inp with key := k } }

/-- A state with its next inputs scheduled. -/
def withNext (e : StepInput) (s : State) : State := { s with inputs := [e] }

/-- The state an outcome carries. -/
def stateOf : Result → State
  | .next t => t
  | .fault (.raised _ t) => t
  | _ => State.reset

/-- The outcome is a next state that passes a check. -/
def nextWith (o : Result) (p : State → Bool) : Bool :=
  match o with
  | .next t => p t
  | _ => false

/-- The outcome is a raised fault of a kind, and its state passes a check. -/
def raises (o : Result) (k : FaultKind) (p : State → Bool) : Bool :=
  match o with
  | .fault (.raised r t) => r.kind == k && t.run == .faulted r && p t
  | _ => false

/-- Some pixels of a framebuffer. -/
def pixels (f : Framebuffer) (ps : List (Fin 64 × Fin 32)) : List Bool := ps.map fun p => pixel f p.1 p.2

/-- The byte at an address. -/
def byteAt (s : State) (a : Nat) : Option Byte := (s.memRead a).toOption

/-! Decoding: one word for every constructor, written out from the pattern of its row (30_encoding.md R75). -/

theorem test_decode_control :
    decode 0b0000000011101110 = .ok .ret ∧ decode 0b0001001000000100 = .ok (.jp 0x204) ∧
    decode 0b0010001000001110 = .ok (.call 0x20E) ∧ decode 0b0011001101000010 = .ok (.seImm 3 0x42) ∧
    decode 0b0100001101000011 = .ok (.sneImm 3 0x43) ∧ decode 0b0101000100100000 = .ok (.seReg 1 2) ∧
    decode 0b1001000100100000 = .ok (.sneReg 1 2) ∧ decode 0b1011001100000000 = .ok (.jpV0 0x300) := by decide

theorem test_decode_alu :
    decode 0b0110101000111111 = .ok (.ldImm 10 0x3F) ∧ decode 0b0111000111111111 = .ok (.addImm 1 0xFF) ∧
    decode 0b1000000100100000 = .ok (.ldReg 1 2) ∧ decode 0b1000000100100001 = .ok (.or 1 2) ∧
    decode 0b1000000100100010 = .ok (.and 1 2) ∧ decode 0b1000000100100011 = .ok (.xor 1 2) ∧
    decode 0b1000000100100100 = .ok (.addReg 1 2) ∧ decode 0b1000000100100101 = .ok (.sub 1 2) ∧
    decode 0b1000000100100110 = .ok (.shr 1 2) ∧ decode 0b1000000100100111 = .ok (.subn 1 2) ∧
    decode 0b1000000100101110 = .ok (.shl 1 2) ∧ decode 0b1100001100001111 = .ok (.rnd 3 0x0F) := by decide

theorem test_decode_display_and_keys :
    decode 0b0000000011100000 = .ok .cls ∧ decode 0b1101101010110010 = .ok (.drw 10 11 2) ∧
    decode 0b1110000010011110 = .ok (.skp 0) ∧ decode 0b1110001010100001 = .ok (.sknp 2) ∧
    decode 0b1111000100000111 = .ok (.ldVxDT 1) ∧ decode 0b1111001100001010 = .ok (.ldVxK 3) ∧
    decode 0b1111010000010101 = .ok (.ldDTVx 4) ∧ decode 0b1111001000011000 = .ok (.ldSTVx 2) := by decide

theorem test_decode_index_and_memory :
    decode 0b1010001000010010 = .ok (.ldI 0x212) ∧ decode 0b1111001000011110 = .ok (.addI 2) ∧
    decode 0b1111010100101001 = .ok (.ldF 5) ∧ decode 0b1111011000110011 = .ok (.ldB 6) ∧
    decode 0b1111001001010101 = .ok (.storeRegs 2) ∧ decode 0b1111111101100101 = .ok (.loadRegs 15) := by decide

/-- E1 to E10: words of every category with unused patterns. -/
theorem test_decode_refuses :
    decode 0x0000 = .error (.unrecognized 0x0000) ∧ decode 0x0123 = .error (.unrecognized 0x0123) ∧
    decode 0x00E1 = .error (.unrecognized 0x00E1) ∧ decode 0x5121 = .error (.unrecognized 0x5121) ∧
    decode 0x8128 = .error (.unrecognized 0x8128) ∧ decode 0x812F = .error (.unrecognized 0x812F) ∧
    decode 0x9121 = .error (.unrecognized 0x9121) ∧ decode 0xE19F = .error (.unrecognized 0xE19F) ∧
    decode 0xF100 = .error (.unrecognized 0xF100) ∧ decode 0xFF75 = .error (.unrecognized 0xFF75) := by decide

theorem test_decodeBytes :
    decodeBytes [0x81, 0x26, 0x77] = .ok (.shr 1 2, [0x77]) ∧ decodeBytes [0x81] = .error .truncated ∧
    decodeBytes [0x26, 0x81] = .ok (.call 0x681, []) := by decide

theorem test_decodeTableWord :
    decodeTableWord 16 0x8126 = some (.shr 1 2) ∧ decodeTableWord 16 0xF265 = some (.loadRegs 2) ∧
    decodeTableWord 16 0x8128 = none := by decide

/-! Ill-formed terms: each check refuses one. -/

theorem test_ill_formed_lines :
    AsmLine.check ⟨.ld, [.v 16, .num 0]⟩ = .error (.noSuchRegister 16) ∧
    AsmLine.check ⟨.jp, [.num 4096]⟩ = .error (.addressTooWide 4096) ∧
    AsmLine.check ⟨.add, [.v 0, .num 256]⟩ = .error (.immediateTooWide 256) ∧
    AsmLine.check ⟨.drw, [.v 0, .v 1, .num 16]⟩ = .error (.countTooWide 16) ∧
    AsmLine.check ⟨.jp, [.v 1, .num 0x300]⟩ = .error .noSuchForm ∧
    AsmLine.check ⟨.ld, [.font, .index]⟩ = .error .noSuchForm ∧
    AsmLine.wellFormed ⟨.ret, [.num 0]⟩ = false := by decide

theorem test_well_formed_lines :
    AsmLine.check ⟨.ld, [.v 15, .num 255]⟩ = .ok (.ldImm 15 0xFF) ∧
    AsmLine.check ⟨.jp, [.v 0, .num 4095]⟩ = .ok (.jpV0 0xFFF) ∧ AsmLine.check ⟨.shr, [.v 8]⟩ = .ok (.shr 8 0) ∧
    AsmLine.wellFormed ⟨.ld, [.font, .v 10]⟩ = true := by decide

/-- A byte of `INIT_MEM` in the font, one past the memory, and the two ends of its range (10_state.md R41). -/
theorem test_ill_formed_launch :
    Config.Launch.wellFormed { Config.cleanEntry with initMem := [(79, 1)] } = false ∧
    Config.Launch.wellFormed { Config.cleanEntry with initMem := [(4096, 1)] } = false ∧
    Config.Launch.wellFormed { Config.cleanEntry with initMem := [(80, 1), (4095, 1)] } = true := by decide

/-- 20_memory.md R62: 3584 bytes fit, 3585 do not. -/
theorem test_ill_formed_image :
    imageFits (List.replicate 3585 0) = false ∧ imageFits (List.replicate 3584 0) = true := by decide +kernel

theorem test_assemble :
    assemble "LD V0, 251".toList = some 0x60FB ∧ assemble "DRW VA, VB, 2".toList = some 0xDAB2 ∧
    assemble "LD [I], V2".toList = some 0xF255 ∧ assemble "JP 0x204".toList = some 0x1204 ∧
    assemble "SHR V3".toList = some 0x8306 ∧ assemble "RET".toList = some 0x00EE ∧
    assemble "ADD VF, 0xfE".toList = some 0x7FFE ∧ assemble "LD VG, 1".toList = none ∧
    assemble "JP 2A".toList = none ∧ assemble "LD V0, 256".toList = none := by decide

/-! Control transfer (C2 to C18, S9) -/

theorem test_jp : nextWith (exec (.jp 0x204) base) fun t =>
    t.pc == 0x204 && t.advSuppress && t.nextFetch == 0x204 := by decide

/-- C17 -/
theorem test_jpV0_not_masked : nextWith (exec (.jpV0 0xFFF) (withV [(0, 0xFF)])) fun t =>
    t.pc == 0x10FE && raises (step t) (.outOfRangeMem 0x10FE) fun _ => true := by decide

/-- C16: the register is V0, not that of the top digit. -/
theorem test_jpV0_adds_v0 : nextWith (exec (.jpV0 0x300) (withV [(0, 0x10), (3, 1)])) fun t =>
    t.nextFetch == 0x310 := by decide

/-- C4 -/
theorem test_call : nextWith (exec (.call 0x20E) { base with pc := 0x208 }) fun t =>
    t.sp == some 0 && t.stack[0] == 0x20A && t.pc == 0x20E && t.nextFetch == 0x20E := by decide

/-- C7 -/
theorem test_call_overflow : raises (exec (.call 0x20E) { base with sp := some 15 }) .stackOverflow fun t =>
    t.sp == some 15 && t.stack == base.stack && t.pc == base.pc := by decide

/-- C5 -/
theorem test_ret : nextWith (exec .ret ({ base with sp := none }.pushAt 0 0x20A)) fun t =>
    t.pc == 0x20A && t.sp == none && t.nextFetch == 0x20A := by decide

/-- C6 -/
theorem test_ret_underflow : raises (exec .ret base) .stackUnderflow fun t =>
    t.sp == none && t.pc == base.pc := by decide

/-- C8, C9 -/
theorem test_seImm : (nextWith (exec (.seImm 3 0x42) (withV [(3, 0x42)])) fun t => t.pc == 0x304 &&
      t.nextFetch == 0x304) ∧
    nextWith (exec (.seImm 3 0x43) (withV [(3, 0x42)])) fun t => t.pc == 0x300 && t.nextFetch == 0x302 := by decide

/-- C10, C11 -/
theorem test_sneImm : (nextWith (exec (.sneImm 3 0x43) (withV [(3, 0x42)])) fun t => t.nextFetch == 0x304) ∧
    nextWith (exec (.sneImm 3 0x42) (withV [(3, 0x42)])) fun t => t.nextFetch == 0x302 := by decide

/-- C12, C13 -/
theorem test_seReg : (nextWith (exec (.seReg 1 2) (withV [(1, 7), (2, 7)])) fun t => t.nextFetch == 0x304) ∧
    (nextWith (exec (.seReg 1 1) (withV [(1, 7)])) fun t => t.nextFetch == 0x304) ∧
    nextWith (exec (.seReg 1 2) (withV [(1, 7), (2, 8)])) fun t => t.nextFetch == 0x302 := by decide

/-- C14, C15 -/
theorem test_sneReg : (nextWith (exec (.sneReg 1 2) (withV [(1, 7), (2, 8)])) fun t => t.nextFetch == 0x304) ∧
    nextWith (exec (.sneReg 1 1) (withV [(1, 7)])) fun t => t.nextFetch == 0x302 := by decide

/-! The ALU (A1 to A40) -/

/-- A1 -/
theorem test_ldImm : nextWith (exec (.ldImm 10 0x3F) base) fun t => t.getV 10 == 0x3F && t.getV 15 == 0 := by decide

/-- A2, A3 -/
theorem test_addImm_wraps : (nextWith (exec (.addImm 1 0xFF) (withV [(1, 5), (15, 7)])) fun t => t.getV 1 == 4 &&
      t.getV 15 == 7) ∧
    nextWith (exec (.addImm 0 1) (withV [(0, 0xFF)])) fun t => t.getV 0 == 0 && t.getV 15 == 0 := by decide

/-- A4 -/
theorem test_addImm_vf : nextWith (exec (.addImm 15 1) (withV [(15, 1)])) fun t => t.getV 15 == 2 := by decide

/-- A5 -/
theorem test_ldReg : nextWith (exec (.ldReg 1 2) (withV [(1, 4), (2, 9)])) fun t => t.getV 1 == 9 &&
      t.getV 2 == 9 := by decide

/-- A6 -/
theorem test_or : nextWith (exec (.or 1 2) (withV [(1, 0x0F), (2, 0xF0), (15, 7)])) fun t =>
    t.getV 1 == 0xFF && t.getV 15 == 7 := by decide

/-- A7 -/
theorem test_and : nextWith (exec (.and 1 2) (withV [(1, 0x3C), (2, 0x0F), (15, 7)])) fun t =>
    t.getV 1 == 0x0C && t.getV 15 == 7 := by decide

/-- A8, A9 -/
theorem test_xor : (nextWith (exec (.xor 1 2) (withV [(1, 0xFF), (2, 0x0F), (15, 7)])) fun t =>
      t.getV 1 == 0xF0 && t.getV 15 == 7) ∧
    nextWith (exec (.xor 1 1) (withV [(1, 0x5A)])) fun t => t.getV 1 == 0 := by decide

/-- A10 to A13 -/
theorem test_addReg : (nextWith (exec (.addReg 1 2) (withV [(1, 200), (2, 100)])) fun t => t.getV 1 == 44 &&
      t.getV 15 == 1) ∧
    (nextWith (exec (.addReg 1 2) (withV [(1, 10), (2, 100), (15, 1)])) fun t => t.getV 1 == 110 && t.getV 15 == 0) ∧
    nextWith (exec (.addReg 1 2) (withV [(1, 255), (2, 1)])) fun t => t.getV 1 == 0 && t.getV 15 == 1 := by decide

/-- A16, A17: the flag register as destination and as source. -/
theorem test_addReg_vf : (nextWith (exec (.addReg 15 1) (withV [(15, 200), (1, 100)])) fun t => t.getV 15 == 1) ∧
    nextWith (exec (.addReg 1 15) (withV [(1, 3), (15, 1)])) fun t => t.getV 1 == 4 && t.getV 15 == 0 := by decide

/-- A18, A20 -/
theorem test_sub : (nextWith (exec (.sub 1 2) (withV [(1, 5), (2, 10), (15, 1)])) fun t => t.getV 1 == 251 &&
      t.getV 15 == 0) ∧
    nextWith (exec (.sub 1 2) (withV [(1, 7), (2, 7)])) fun t => t.getV 1 == 0 && t.getV 15 == 1 := by decide

/-- A22, A23 -/
theorem test_subn : (nextWith (exec (.subn 1 2) (withV [(1, 5), (2, 10)])) fun t => t.getV 1 == 5 && t.getV 15 == 1) ∧
    nextWith (exec (.subn 1 2) (withV [(1, 10), (2, 5), (15, 1)])) fun t => t.getV 1 == 251 &&
      t.getV 15 == 0 := by decide

/-- A30, A31, A28: y is ignored, and x = F keeps the flag. -/
theorem test_shr : (nextWith (exec (.shr 3 10) (withV [(3, 0x80), (10, 1)])) fun t => t.getV 3 == 0x40 &&
      t.getV 15 == 0) ∧
    (nextWith (exec (.shr 15 0) (withV [(15, 2)])) fun t => t.getV 15 == 0) ∧
    nextWith (exec (.shr 3 0) (withV [(3, 0xFF)])) fun t => t.getV 3 == 0x7F && t.getV 15 == 1 := by decide

/-- A38 -/
theorem test_shr_reads_vy : nextWith (exec (.shr 3 2) { withV [(3, 0xFF), (2, 4), (15, 1)] with switches := ⟨true, false⟩ })
    fun t => t.getV 3 == 2 && t.getV 15 == 0 := by decide

/-- A32, A34 -/
theorem test_shl : (nextWith (exec (.shl 3 0) (withV [(3, 0x81)])) fun t => t.getV 3 == 2 && t.getV 15 == 1) ∧
    nextWith (exec (.shl 3 0) (withV [(3, 0x7F), (15, 1)])) fun t => t.getV 3 == 0xFE && t.getV 15 == 0 := by decide

/-- A36, A37 -/
theorem test_shl_xor_flag :
    (nextWith (exec (.shl 3 0) { withV [(3, 0x80), (15, 1)] with switches := ⟨false, true⟩ }) fun t =>
      t.getV 3 == 0 && t.getV 15 == 0) ∧
    nextWith (exec (.shl 3 0) { withV [(3, 0x80)] with switches := ⟨false, true⟩ }) fun t =>
      t.getV 3 == 0 && t.getV 15 == 1 := by decide

/-- A39, A40 -/
theorem test_rnd : (nextWith (exec (.rnd 3 0x0F) { base with inp := ⟨none, 0xAB, 0, 0⟩ }) fun t => t.getV 3 == 0x0B) ∧
    nextWith (exec (.rnd 3 0) { base with inp := ⟨none, 0xAB, 0, 0⟩ }) fun t => t.getV 3 == 0 := by decide

/-! The display (G1 to G12) -/

/-- G1 -/
theorem test_cls : nextWith (exec .cls ({ withV [(15, 7)] with i := 5 }.setFb (setPixel Config.blankScreen 63 31 true)))
    fun t => pixels t.fb [(63, 31), (0, 0)] == [false, false] && t.getV 15 == 7 && t.i == 5 := by decide +kernel

/-- The state before G2. -/
def beforeG2 : State := { withBytes 0x212 [0xF0, 0x80] (withV [(10, 63), (11, 31), (15, 9)]) with i := 0x212 }

/-- G2 and G3: both axes wrap, and the second draw of the same sprite collides. -/
theorem test_drw_wraps_and_collides : nextWith (exec (.drw 10 11 2) beforeG2) fun t =>
    pixels t.fb [(63, 31), (0, 31), (2, 31), (3, 31), (63, 0), (0, 0)] == [true, true, true, false, true, false] &&
    t.getV 15 == 0 &&
    nextWith (exec (.drw 10 11 2) t) fun u => pixels u.fb [(63, 31), (0, 31), (63, 0)] == [false, false, false] &&
      u.getV 15 == 1 := by decide +kernel

/-- G9: one bit of a row turns a pixel off, the other turns one on. -/
theorem test_drw_mixed_row : nextWith (exec (.drw 0 1 1)
      ({ withBytes 0x300 [0x81] with i := 0x300 }.setFb (setPixel Config.blankScreen 0 0 true)))
    fun t => pixels t.fb [(0, 0), (1, 0), (7, 0)] == [false, false, true] && t.getV 15 == 1 := by decide +kernel

/-! Keys and timers (K1 to K18) -/

/-- K1, K4 -/
theorem test_skp : (nextWith (exec (.skp 0) (withKey (some 3) (withV [(0, 3)]))) fun t => t.nextFetch == 0x304) ∧
    nextWith (exec (.skp 0) (withKey (some 3) (withV [(0, 0x13)]))) fun t => t.nextFetch == 0x302 := by decide

/-- K2: no key, and V0 = 0. -/
theorem test_skp_none : nextWith (exec (.skp 0) (withKey none base)) fun t => t.nextFetch == 0x302 := by decide

/-- K5, K6, K7 -/
theorem test_sknp : (nextWith (exec (.sknp 0) (withKey none (withV [(0, 3)]))) fun t => t.nextFetch == 0x304) ∧
    (nextWith (exec (.sknp 0) (withKey (some 3) (withV [(0, 3)]))) fun t => t.nextFetch == 0x302) ∧
    nextWith (exec (.sknp 0) (withKey (some 3) (withV [(0, 0x13)]))) fun t => t.nextFetch == 0x304 := by decide

/-- K8 -/
theorem test_ldVxK_waits : nextWith (exec (.ldVxK 3) (withKey none (withV [(3, 9)]))) fun t =>
    t.getV 3 == 9 && t.pc == 0x300 && t.advSuppress && t.nextFetch == 0x300 := by decide

/-- K9, K10 -/
theorem test_ldVxK : (nextWith (exec (.ldVxK 3) (withKey (some 7) base)) fun t => t.getV 3 == 7 &&
      t.nextFetch == 0x302) ∧
    nextWith (exec (.ldVxK 15) (withKey (some 0) (withV [(15, 9)]))) fun t => t.getV 15 == 0 := by decide

/-- K11: the read comes after the tick. -/
theorem test_ldVxDT : nextWith (step (withNext ⟨none, 0, 1, 0⟩ ({ base with dt := 5 }.withFetchWord 16 0xF107))) fun t =>
    t.getV 1 == 4 && t.dt == 4 := by decide

/-- K18: the tick, then the write. -/
theorem test_ldDTVx : nextWith (step (withNext ⟨none, 0, 1, 0⟩ ({ withV [(0, 60)] with dt := 9, st := 3 }.withFetchWord 16 0xF015)))
    fun t => t.dt == 60 && t.st == 3 := by decide

/-- K14 -/
theorem test_ldSTVx : nextWith (exec (.ldSTVx 2) { withV [(2, 0x10)] with dt := 4 }) fun t =>
    t.st == 0x10 && t.dt == 4 := by decide

/-- K15, K16, K17 -/
theorem test_timers_decay : decay 2 1 = 1 ∧ decay 1 1 = 0 ∧ decay 0 1 = 0 ∧ decay 5 10 = 0 ∧
      decay 255 256 = 0 := by decide

/-! The index register and memory (M1 to M19) -/

/-- M1 -/
theorem test_ldI : nextWith (exec (.ldI 0x212) base) fun t => t.i == 0x212 := by decide

/-- M2, M4 -/
theorem test_addI : (nextWith (exec (.addI 2) { withV [(2, 0x10)] with i := 0x300 }) fun t => t.i == 0x310) ∧
    nextWith (exec (.addI 0) { withV [(0, 1), (15, 7)] with i := 0xFFFF }) fun t => t.i == 0 &&
      t.getV 15 == 7 := by decide

/-- M5, M7 -/
theorem test_ldF : (nextWith (exec (.ldF 0) (withV [(0, 10)])) fun t => t.i == 50) ∧
    nextWith (exec (.ldF 0) (withV [(0, 0xFF)])) fun t => t.i == 1275 := by decide

/-- M8 -/
theorem test_ldB : nextWith (exec (.ldB 0) { withV [(0, 251)] with i := 0x300 }) fun t =>
    byteAt t 0x300 == some 2 && byteAt t 0x301 == some 5 && byteAt t 0x302 == some 1 && t.i == 0x300 := by decide

/-- M13 -/
theorem test_ldB_faults : raises (exec (.ldB 0) { withV [(0, 123)] with i := 0xFFE }) (.outOfRangeMem 0x1000) fun t =>
    byteAt t 0xFFE == some 1 && byteAt t 0xFFF == some 2 := by decide

/-- M14 -/
theorem test_storeRegs : nextWith (exec (.storeRegs 2) { withV [(0, 1), (1, 2), (2, 3), (3, 4)] with i := 0x300 }) fun t =>
    byteAt t 0x300 == some 1 && byteAt t 0x301 == some 2 && byteAt t 0x302 == some 3 && byteAt t 0x303 == some 0 &&
    t.i == 0x300 := by decide

/-- M16 -/
theorem test_storeRegs_faults : raises (exec (.storeRegs 2) { withV [(0, 7), (1, 8), (2, 9)] with i := 0xFFE })
    (.outOfRangeMem 0x1000) fun t => byteAt t 0xFFE == some 7 && byteAt t 0xFFF == some 8 := by decide

/-- M17 -/
theorem test_loadRegs : nextWith (exec (.loadRegs 2) { withBytes 0x300 [2, 5, 1, 6] (withV [(3, 9)]) with i := 0x300 })
    fun t => t.getV 0 == 2 && t.getV 1 == 5 && t.getV 2 == 1 && t.getV 3 == 9 && t.i == 0x300 := by decide

/-- M19 -/
theorem test_loadRegs_faults : raises (exec (.loadRegs 1) { withBytes 0xFFF [6] (withV [(1, 9)]) with i := 0xFFF })
    (.outOfRangeMem 0x1000) fun t => t.getV 0 == 6 && t.getV 1 == 9 := by decide

/-! Steps, reset and boot -/

/-- C1: the first fetch is at 0x200. -/
theorem test_first_step : nextWith (step (withNext .quiet (State.reset.withFetchWord 16 0x6001))) fun t =>
    t.getV 0 == 1 && t.pc == 0x200 && !t.advSuppress && t.nextFetch == 0x202 := by decide

/-- C18 -/
theorem test_jump_to_the_last_byte : nextWith (step (withNext .quiet (State.reset.withFetchWord 16 0x1FFF))) fun t =>
    t.nextFetch == 0xFFF && raises (step t) (.outOfRangeMem 0x1000) fun u => u.pc == 0xFFF := by decide

/-- P6: an unrecognized word at reset. -/
theorem test_unrecognized_step : raises (step (withNext .quiet (State.reset.withFetchWord 16 0x0123)))
    (.unrecognizedInstruction 0x0123) fun t => t.pc == 0x200 := by decide

/-- A store over the last font byte: the region is writable (20_memory.md R61). -/
theorem test_font_is_writable : nextWith (exec (.storeRegs 0) { withV [(0, 7)] with i := 79 }) fun t =>
    byteAt t 79 == some 7 && byteAt t 78 == some 0x80 := by decide

/-- S13: the boundary addresses and pixels. -/
theorem test_boundaries :
    byteAt base 4095 = some 0 ∧ byteAt base 4096 = none ∧ base.fbGet 63 31 = .ok false ∧ base.fbGet 0 0 = .ok false ∧
    base.fbGet 64 0 = .error (.outOfRangeFb 64 0) ∧ base.fbGet 0 (-1) = .error (.outOfRangeFb 0 (-1)) := by decide

/-- 44_index_memory.md R188: the glyphs of 0 and F at addresses 0 and 75. -/
theorem test_font : (List.range 5).map (byteAt State.reset) = [some 0xF0, some 0x90, some 0x90, some 0x90, some 0xF0] ∧
    (List.range 5).map (fun k => byteAt State.reset (75 + k)) = [some 0xF0, some 0x80, some 0xF0, some 0x80, some 0x80] := by
  decide

/-- P1's image, its first byte and its last. -/
theorem test_boot : nextWith (boot Config.cleanEntry [0x60, 0x00, 0x61, 0x05, 0x80, 0x14, 0x71, 0xFF, 0x31, 0x00, 0x12, 0x04, 0x12, 0x0C])
    fun t => byteAt t 0x200 == some 0x60 && byteAt t 0x20D == some 0x0C && byteAt t 0x20E == some 0 &&
      t.nextFetch == 0x200 := by
  decide +kernel

/-- 10_state.md R36 and 92_eei_decisions.md D30: a run launched with a switch true runs with it (word 8326, A38's values). -/
theorem test_launch_with_a_switch :
    nextWith (boot { Config.cleanEntry with switches := ⟨true, false⟩, initV := #v[0, 0, 4, 0xFF, 0, 0, 0, 0, 0, 0, 0, 0, 0, 0, 0, 1] }
      [0x83, 0x26]) (fun s => nextWith (step (withNext .quiet s)) fun t => t.getV 3 == 2 && t.getV 15 == 0) := by
  decide +kernel

/-- 10_state.md R33: an out-of-range poll of a faulted run keeps the first record. -/
theorem test_poll_keeps_the_first_record :
    displayPoll 64 0 base = .error (.raised ⟨.outOfRangeFb 64 0, 0x300⟩ (base.setRun (.faulted ⟨.outOfRangeFb 64 0, 0x300⟩))) ∧
    displayPoll 64 0 (base.setRun (.faulted ⟨.stackOverflow, 0x200⟩)) =
      .error (.raised ⟨.outOfRangeFb 64 0, 0x300⟩ (base.setRun (.faulted ⟨.stackOverflow, 0x200⟩))) := ⟨rfl, rfl⟩

theorem test_fault_codes : FaultKind.code (.outOfRangeMem 4096) = 1 ∧ FaultKind.code (.outOfRangeFb 64 0) = 2 ∧
    FaultKind.code (.unrecognizedInstruction 0) = 3 ∧ FaultKind.code .stackOverflow = 4 ∧
    FaultKind.code .stackUnderflow = 5 := by decide

/-! Witnesses: for every statement of Obligations.lean with hypotheses, a state and operands that meet them, for each
clause, at the ends of its range. -/

/-- The state an instruction leaves. -/
def after (i : Instr) (s : State) : State := stateOf (exec i s)

theorem witness_RecognizedWordIsItsEncoding : decode 0x8126 = .ok (.shr 1 2) ∧ decode 0xFFFF ≠ .ok .cls := by decide

theorem witness_UnrecognizedWordsExactly :
    decode 0x00EF = .error (.unrecognized 0x00EF) ∧ decode 0x5001 = .error (.unrecognized 0x5001) ∧
    decode 0x8008 = .error (.unrecognized 0x8008) ∧ decode 0x900F = .error (.unrecognized 0x900F) ∧
    decode 0xE09F = .error (.unrecognized 0xE09F) ∧ decode 0xF066 = .error (.unrecognized 0xF066) ∧
    decode 0x8007 = .ok (.subn 0 0) ∧ decode 0xE0A1 = .ok (.sknp 0) := by decide

theorem witness_InstructionBytesRoundTrip : ([] : List Byte).length < 2 ∧ ([0x81] : List Byte).length < 2 := by decide

theorem witness_MemoryWriteThenRead : 0 < 4096 ∧ 4095 < 4096 ∧ 4096 ≤ 4096 ∧
    byteAt (withBytes 4095 [7]) 4095 = some 7 ∧ byteAt base 4096 = none := by decide

theorem witness_FetchIsBigEndian : 4094 + 1 < 4096 ∧ 4095 + 1 = 4096 ∧ 4096 ≤ 4096 ∧
    (withBytes 4094 [0x12, 0x34]).fetch 4094 = .ok 0x1234 ∧ base.fetch 4095 = .error (.outOfRangeMem 4096) := by decide

theorem witness_StoredBytesAreFetched :
    (1 ≤ (1 : Reg).val ∧ { base with i := 4094 }.i.toNat + (1 : Reg).val < 4096) ∧
    1 ≤ (15 : Reg).val ∧ { base with i := 4080 }.i.toNat + (15 : Reg).val < 4096 := by decide

/-- A state whose next step stores three bytes, at the end of memory or past it. -/
def storing (i : Word) : State := { withNext .quiet (base.withFetchWord 16 0xF033) with i := i }

theorem witness_StepKeepsMemoryCanonical :
    (storing 0x300).mem.wf ∧ step (storing 0x300) = .next (stateOf (step (storing 0x300))) ∧ (storing 0xFFE).mem.wf ∧
    step (storing 0xFFE) = .fault (.raised ⟨.outOfRangeMem 4096, 0x302⟩ (stateOf (step (storing 0xFFE)))) :=
  ⟨by decide, rfl, by decide, rfl⟩

/-- A state whose next step is a word. -/
def running (w : Nat) : State := withNext .quiet (State.reset.withFetchWord 16 w)

theorem witness_StepKeepsCodeBounds :
    (running 0xBFFF).CodeBounded ∧ step (running 0xBFFF) = .next (stateOf (step (running 0xBFFF))) ∧
    (base.pushAt 15 0x1000).CodeBounded ∧ ¬ { base with pc := 0x10FF }.CodeBounded :=
  ⟨by unfold State.CodeBounded; decide, rfl, by unfold State.CodeBounded; decide, by unfold State.CodeBounded; decide⟩

theorem witness_StepRunsTheDecodedInstruction :
    (running 0x8126).run = .running ∧ (running 0x8126).fetch (running 0x8126).nextFetch = .ok 0x8126 ∧
    decode 0x8126 = .ok (.shr 1 2) := by decide

theorem witness_EnterTicksAndAdvances :
    base.nextFetch < 65536 ∧ base.inputs = .quiet :: [] ∧ State.reset.inputs = [] ∧
    State.reset.nextFetch = 0x200 ∧ base.nextFetch = 0x302 := by decide

theorem witness_UnrecognizedWordFaults :
    (running 0x00E1).run = .running ∧ (running 0x00E1).fetch (running 0x00E1).nextFetch = .ok 0x00E1 ∧
    ∃ e, decode 0x00E1 = .error e := ⟨rfl, rfl, _, rfl⟩

theorem witness_FetchOutOfRangeFaults :
    { base with pc := 4094 }.run = .running ∧ 4096 ≤ { base with pc := 4094 }.nextFetch ∧
    { base with pc := 4093 }.nextFetch = 4095 := by decide

theorem witness_RunStatusOfEveryStep :
    step (running 0x0000) = .fault (.raised ⟨.unrecognizedInstruction 0, 0x200⟩ (stateOf (step (running 0x0000)))) ∧
    step (running 0x00E0) = .next (stateOf (step (running 0x00E0))) ∧
    (base.setRun (.faulted ⟨.stackOverflow, 0x300⟩)).run = .faulted ⟨.stackOverflow, 0x300⟩ := ⟨rfl, rfl, rfl⟩

theorem witness_FaultsOfEveryInstruction :
    exec (.call 0) { base with sp := some 15 } =
      .fault (.raised ⟨.stackOverflow, 0x300⟩ (after (.call 0) { base with sp := some 15 })) ∧
    exec .ret base = .fault (.raised ⟨.stackUnderflow, 0x300⟩ (after .ret base)) ∧
    exec (.drw 0 1 2) { base with i := 4095 } =
      .fault (.raised ⟨.outOfRangeMem 4096, 0x300⟩ (after (.drw 0 1 2) { base with i := 4095 })) ∧
    exec (.ldB 0) { base with i := 4094 } =
      .fault (.raised ⟨.outOfRangeMem 4096, 0x300⟩ (after (.ldB 0) { base with i := 4094 })) ∧
    exec (.storeRegs 1) { base with i := 4095 } =
      .fault (.raised ⟨.outOfRangeMem 4096, 0x300⟩ (after (.storeRegs 1) { base with i := 4095 })) ∧
    exec (.loadRegs 0) { base with i := 65535 } =
      .fault (.raised ⟨.outOfRangeMem 65535, 0x300⟩ (after (.loadRegs 0) { base with i := 65535 })) :=
  ⟨rfl, rfl, rfl, rfl, rfl, rfl⟩

theorem witness_OnlyThreeInstructionsWriteI :
    exec (.ldI 1) base = .next (after (.ldI 1) base) ∧ (after (.ldI 1) base).i ≠ base.i ∧
    exec (.addI 0) (withV [(0, 1)]) = .next (after (.addI 0) (withV [(0, 1)])) ∧
    (after (.addI 0) (withV [(0, 1)])).i ≠ (withV [(0, 1)]).i ∧
    exec (.ldF 0) (withV [(0, 1)]) = .next (after (.ldF 0) (withV [(0, 1)])) ∧
    (after (.ldF 0) (withV [(0, 1)])).i ≠ (withV [(0, 1)]).i :=
  ⟨rfl, by decide, rfl, by decide, rfl, by decide⟩

theorem witness_OnlyCallAndRetUseTheStack :
    exec (.call 1) base = .next (after (.call 1) base) ∧ (after (.call 1) base).stack ≠ base.stack ∧
    exec .ret (base.pushAt 0 2) = .next (after .ret (base.pushAt 0 2)) ∧
    (after .ret (base.pushAt 0 2)).sp ≠ (base.pushAt 0 2).sp :=
  ⟨rfl, by decide, rfl, by decide⟩

/-- A screen with one corner on. -/
def cornerOn : State := base.setFb (setPixel Config.blankScreen 63 31 true)

/-- A state in which DRW V0, V0, 1 draws one pixel at (0, 0). -/
def drawing : State := { withBytes 0x300 [0x80] with i := 0x300 }

theorem witness_OnlyClearAndDrawChangeTheScreen :
    exec .cls cornerOn = .next (after .cls cornerOn) ∧
    pixel (after .cls cornerOn).fb 63 31 ≠ pixel cornerOn.fb 63 31 ∧
    exec (.drw 0 0 1) drawing = .next (after (.drw 0 0 1) drawing) ∧
    pixel (after (.drw 0 0 1) drawing).fb 0 0 ≠ pixel drawing.fb 0 0 :=
  ⟨rfl, by decide +kernel, rfl, by decide +kernel⟩

theorem witness_OnlyTimerWritesChangeTimers :
    exec (.ldDTVx 0) (withV [(0, 1)]) = .next (after (.ldDTVx 0) (withV [(0, 1)])) ∧
    (after (.ldDTVx 0) (withV [(0, 1)])).dt ≠ (withV [(0, 1)]).dt ∧
    exec (.ldSTVx 0) (withV [(0, 1)]) = .next (after (.ldSTVx 0) (withV [(0, 1)])) ∧
    (after (.ldSTVx 0) (withV [(0, 1)])).st ≠ (withV [(0, 1)]).st :=
  ⟨rfl, by decide, rfl, by decide⟩

theorem witness_OnlyTwoInstructionsWriteMemory :
    exec (.ldB 0) { withV [(0, 100)] with i := 4093 } = .next (after (.ldB 0) { withV [(0, 100)] with i := 4093 }) ∧
    byteAt (after (.ldB 0) { withV [(0, 100)] with i := 4093 }) 4093 ≠ byteAt base 4093 ∧
    exec (.storeRegs 1) { withV [(0, 100)] with i := 4095 } =
      .fault (.raised ⟨.outOfRangeMem 4096, 0x300⟩ (after (.storeRegs 1) { withV [(0, 100)] with i := 4095 })) ∧
    byteAt (after (.storeRegs 1) { withV [(0, 100)] with i := 4095 }) 4095 ≠ byteAt base 4095 :=
  ⟨rfl, by decide, rfl, by decide⟩

theorem witness_OnlyTransfersChangeControl :
    exec (.jp 1) base = .next (after (.jp 1) base) ∧ (after (.jp 1) base).pc ≠ base.pc ∧
    exec (.ldVxK 0) base = .next (after (.ldVxK 0) base) ∧ (after (.ldVxK 0) base).advSuppress ≠ base.advSuppress :=
  ⟨rfl, by decide, rfl, by decide⟩

theorem witness_OnlyDestinationsAreWritten :
    exec (.ldImm 3 1) base = .next (after (.ldImm 3 1) base) ∧ (after (.ldImm 3 1) base).getV 3 ≠ base.getV 3 ∧
    exec (.addReg 1 2) (withV [(1, 255), (2, 1)]) = .next (after (.addReg 1 2) (withV [(1, 255), (2, 1)])) ∧
    (after (.addReg 1 2) (withV [(1, 255), (2, 1)])).getV 15 ≠ (withV [(1, 255), (2, 1)]).getV 15 :=
  ⟨rfl, by decide, rfl, by decide⟩

theorem witness_InputsReachOnlyTheirInstructions :
    (readsKey (.skp 0) = true → (⟨base.inp.key, 9, 1, 1⟩ : StepInput).key = base.inp.key) ∧
    (readsRandom (.rnd 0 1) = true → (⟨some 1, base.inp.rnd, 1, 1⟩ : StepInput).rnd = base.inp.rnd) ∧
    readsKey (.ldImm 0 1) = false ∧ readsRandom (.ldImm 0 1) = false := by decide

theorem witness_JumpGoesToItsTarget : (0xFFF : Addr12) = 0xFFF ∧ base.run = .running := by decide

theorem witness_IndexedJumpAddsV0 :
    4095 ≤ (0xFFF : Addr12).toNat + (base.getV 0).toNat ∧ base.run = .running ∧
    4095 ≤ (0xFFF : Addr12).toNat + ((withV [(0, 0xFF)]).getV 0).toNat := by decide

theorem witness_CallPushesTheReturnAddress :
    ((0 : Fin 16).val : Int) = base.spValue + 1 ∧ ((15 : Fin 16).val : Int) = { base with sp := some 14 }.spValue + 1 ∧
    { base with sp := some 15 }.spValue = 15 := by decide

theorem witness_RetPopsTheReturnAddress :
    ((0 : Fin 16).val : Int) = { base with sp := some 0 }.spValue ∧
    ((15 : Fin 16).val : Int) = { base with sp := some 15 }.spValue ∧ base.spValue = -1 := by decide

theorem witness_CallThenRetReturns :
    { base with pc := 4094 }.pc.toNat ≤ 4094 ∧
    exec (.call 0x300) { base with pc := 4094 } = .next
      (after (.call 0x300) { base with pc := 4094 }) := ⟨by decide, rfl⟩

theorem witness_CompareSkips :
    base.getV 3 = 0 ∧ base.getV 3 ≠ 1 ∧ base.getV 3 = base.getV 3 ∧
      (withV [(15, 1)]).getV 15 ≠ (withV [(15, 1)]).getV 0 := by
  decide

theorem witness_KeySkips :
    (∃ k, (withKey (some 15) (withV [(0, 15)])).inp.key = some k ∧ ((withV [(0, 15)]).getV 0).toNat = k.val) ∧
    (withKey none base).inp.key = none ∧
    ∃ k, (withKey (some 3) base).inp.key = some k ∧ (base.getV 0).toNat ≠ k.val :=
  ⟨⟨15, by decide⟩, by decide, ⟨3, by decide⟩⟩

theorem witness_CopyAndLogicLeaveTheFlag : 0 < 8 ∧ 7 < 8 := by decide

theorem witness_AddWritesTheCarry : (14 : Reg) ≠ 15 ∧
    255 < ((withV [(1, 255), (2, 1)]).getV 1).toNat + ((withV [(1, 255), (2, 1)]).getV 2).toNat ∧
    ¬ 255 < ((withV [(1, 255)]).getV 1).toNat + ((withV [(1, 255)]).getV 2).toNat := by decide

theorem witness_SubtractionsWriteNoBorrow : (14 : Reg) ≠ 15 ∧
    ((withV [(1, 7), (2, 7)]).getV 2).toNat ≤ ((withV [(1, 7), (2, 7)]).getV 1).toNat ∧
    ¬ ((withV [(1, 7), (2, 8)]).getV 2).toNat ≤ ((withV [(1, 7), (2, 8)]).getV 1).toNat := by decide

/-- `base` with the switches given. -/
def switched (readsVy xorFlag : Bool) (s : State) : State := { s with switches := ⟨readsVy, xorFlag⟩ }

theorem witness_ShiftRightHalves : (14 : Reg) ≠ 15 ∧
    (0x80 : Byte) = (switched false false (withV [(3, 0x80)])).getV
      (if (switched false false (withV [(3, 0x80)])).switches.shiftReadsVy = true then 2 else 3) ∧
    (0x80 : Byte) = (switched true false (withV [(2, 0x80)])).getV
      (if (switched true false (withV [(2, 0x80)])).switches.shiftReadsVy = true then 2 else 3) := by decide

theorem witness_ShiftLeftDoubles : (14 : Reg) ≠ 15 ∧ (15 : Reg) = 15 ∧
    (0x80 : Byte) = (switched true true (withV [(2, 0x80)])).getV
      (if (switched true true (withV [(2, 0x80)])).switches.shiftReadsVy = true then 2 else 3) ∧
    (switched true true base).switches.shlFlagXor = true ∧ base.switches.shlFlagXor = false := by decide

theorem witness_RandomByteIsMasked : 0 < 8 ∧ 7 < 8 ∧ (0 : Byte) = 0 ∧ (0xFF : Byte) = 0xFF := by decide

theorem witness_DrawTogglesTheWrappedSprite :
    (∀ r < (1 : Nibble).toNat, drawing.memRead (drawing.i.toNat + r) = .ok ((fun _ => 0x80) r)) ∧
    (∀ r < (0 : Nibble).toNat, base.memRead (base.i.toNat + r) = .ok ((fun _ => 0) r)) ∧
    (∀ r < (1 : Nibble).toNat, { base with i := 4095 }.memRead (4095 + r) = .ok ((fun _ => 0) r)) ∧
    spriteMask (fun _ => 0x80) 1 64 32 0 0 ∧ spriteMask (fun _ => 0xC0) 1 63 31 0 31 :=
  ⟨by decide, by decide, by decide, ⟨0, by decide, 0, by decide⟩, ⟨0, by decide, 1, by decide⟩⟩

theorem witness_DrawTwiceRestoresTheScreen :
    exec (.drw 0 0 1) drawing = .next (after (.drw 0 0 1) drawing) ∧
    (after (.drw 0 0 1) drawing).getV 0 = drawing.getV 0 ∧ drawing.fb = Config.blankScreen ∧
    ∃ px py, pixel (after (.drw 0 0 1) drawing).fb px py = true :=
  ⟨rfl, by decide +kernel, rfl, 0, 0, by decide +kernel⟩

theorem witness_DrawOutOfRangeChangesNothing :
    (1 < (2 : Nibble).toNat ∧ (∀ j < 1, { base with i := 4095 }.i.toNat + j < 4096) ∧
      4096 ≤ { base with i := 4095 }.i.toNat + 1) ∧
    0 < (1 : Nibble).toNat ∧ (∀ j < 0, { base with i := 4096 }.i.toNat + j < 4096) ∧
      4096 ≤ { base with i := 4096 }.i.toNat + 0 := by decide

theorem witness_PixelAccessors :
    ((0 : Int) ≤ 0 ∧ (0 : Int) < 64 ∧ (0 : Int) < 32) ∧ ((0 : Int) ≤ 63 ∧ (63 : Int) < 64 ∧ (31 : Int) < 32) ∧
    ((-1 : Int) < 0 ∧ (64 : Int) ≤ 64 ∧ (32 : Int) ≤ 32) ∧ ((0 : Int) ≠ 1 ∨ (0 : Int) ≠ 0) ∧
    base.run = .running ∧ (base.setRun (.faulted ⟨.stackOverflow, 0x200⟩)).run = .faulted ⟨.stackOverflow, 0x200⟩ := by
  decide

theorem witness_KeyWait :
    (withKey none base).inp.key = none ∧ (withKey (some 0) base).inp.key = some 0 ∧
    (withKey (some 15) base).inp.key = some 15 ∧ (withKey (some 15) base).advSuppress = false := by decide

theorem witness_WaitingStepRepeats :
    (running 0xF30A).run = .running ∧ (running 0xF30A).fetch (running 0xF30A).nextFetch = .ok 0xF30A ∧
    decode 0xF30A = .ok (.ldVxK 3) ∧ (running 0xF30A).nextInput.key = none := by decide

theorem witness_BcdStoresTheDigits : base.i.toNat + 2 < 4096 ∧ { base with i := 4093 }.i.toNat + 2 < 4096 := by decide

theorem witness_BlockStore :
    { base with i := 4080 }.i.toNat + (15 : Reg).val < 4096 ∧ { base with i := 4095 }.i.toNat + (0 : Reg).val < 4096 ∧
    (15 : Reg).val ≤ (15 : Reg).val := by decide

theorem witness_BlockLoad :
    { base with i := 4080 }.i.toNat + (15 : Reg).val < 4096 ∧ { base with i := 4095 }.i.toNat + (0 : Reg).val < 4096 ∧
    (15 : Reg).val ≤ (15 : Reg).val := by decide

/-- k = 2 is the last byte of LD B, k = x = 15 the last of a block, and k = 0 the first of either. -/
theorem witness_TransferFaultsKeepEarlierBytes :
    ((∀ j < 2, { base with i := 4094 }.i.toNat + j < 4096) ∧ 4096 ≤ { base with i := 4094 }.i.toNat + 2 ∧ 2 < 3) ∧
    ((∀ j < 15, { base with i := 4081 }.i.toNat + j < 4096) ∧ 4096 ≤ { base with i := 4081 }.i.toNat + 15 ∧
      15 ≤ (15 : Reg).val) ∧
    (∀ j < 0, { base with i := 65535 }.i.toNat + j < 4096) ∧ 4096 ≤ { base with i := 65535 }.i.toNat + 0 ∧
      0 ≤ (0 : Reg).val := by decide

theorem witness_BootPlacesFontAndImage :
    ([] : List Byte).length ≤ 3584 ∧ (List.replicate 3584 (1 : Byte)).length ≤ 3584 ∧ 79 < 80 :=
  ⟨by decide, List.length_replicate.le, by decide⟩

/-- The image ends at 512 and at 4096; the two pairs name the first and the last address of the range. -/
theorem witness_LaunchParametersTakeEffect :
    ([] : List Byte).length ≤ 3584 ∧ (List.replicate 3584 (1 : Byte)).length ≤ 3584 ∧
    (511 < 512 ∧ 512 + ([] : List Byte).length ≤ 512) ∧
    { Config.cleanEntry with initMem := [(80, 1), (80, 2), (4095, 3)] }.initMem = [(80, 1)] ++ (80, 2) :: [(4095, 3)] ∧
    (∀ c ∈ [((4095, 3) : Nat × Byte)], c.1 ≠ 80) ∧ ∀ c ∈ Config.cleanEntry.initMem, c.1 ≠ 4095 :=
  ⟨by decide, List.length_replicate.le, by decide, rfl, by decide, by decide⟩

theorem witness_ImageLoad :
    ([] : List Byte).length ≤ 3584 ∧ (List.replicate 3584 (1 : Byte)).length ≤ 3584 ∧
    3584 < (List.replicate 3585 (1 : Byte)).length :=
  ⟨by decide, List.length_replicate.le, List.length_replicate.symm ▸ by decide⟩

theorem witness_SelfJumpIsForEver : (running 0x1200).AtEnd := ⟨rfl, 0x200, by decide, by decide⟩

end Sys2Proof.Tests
end

section
/-! Construction followed by the image load (10_state.md R37, 70_reset_and_hazards.md R230): the state a boot leaves, said
once, and what reads of it see. -/

namespace Sys2Proof.Machine

/-- A boot with an image that fits leaves the constructed machine with the image written from the load offset on
(R37, R62). -/
theorem boot_ok (p : Config.Launch) (image : List Byte) (h : image.length ≤ 3584) :
    boot p image = .next ((construct p).setMem ((construct p).mem.writeList Config.loadOffset image)) :=
  loadFrom_ok Config.loadOffset image (construct p) fun k hk => by
    simp only [Config.loadOffset, Config.memSize]
    omega

/-- A constructed machine holds the launch's font at 0 to 79, whatever `INIT_MEM` names (R37, R41). -/
theorem construct_memRead_font (p : Config.Launch) (a : Nat) (h : a < 80) :
    (construct p).memRead a = .ok p.font[a] := by
  have written := State.memRead_writeList ((construct p).setMem (Memory.ofPairs p.initMem [])) 0 a p.font.toList
    (by simpa using h) (by simp only [Config.memSize]; omega)
  simp only [Nat.zero_add, Vector.getElem_toList] at written
  exact (State.memRead_congr rfl a).trans written

/-- Settles O56: the load keeps PC, SP and the run status of the constructed machine and writes from 512 on, so the font
stands below it. -/
theorem bootPlacesFontAndImage : Obligations.BootPlacesFontAndImage := by
  intro p image hlen
  have frame := Frame.writeList [] [] (construct p) Config.loadOffset image
  refine ⟨_, boot_ok p image hlen, rfl, rfl, rfl, fun a ha => ?font, fun k hk => ?image⟩
  case font =>
    have outside : ¬ cellsFrom Config.loadOffset image.length a := by
      simp only [cellsFrom, Config.loadOffset]
      omega
    rw [frame.memory a outside, construct_memRead_font p a ha]
  case image =>
    exact State.memRead_writeList _ _ k image hk (by simp only [Config.loadOffset, Config.memSize]; omega)

end Sys2Proof.Machine
end

section
/-! The memory operations of 20_memory.md against their statements: single byte writes (R52, R61), fetch (R54) and the
image load (R62). -/

namespace Sys2Proof.Machine

/-- A frame may name more cells than were written. -/
theorem Frame.mono_cells {regs : List Reg} {parts : List Part} {cells cells' : Nat → Prop} {s t : State}
    (h : Frame regs parts cells s t) (sub : ∀ c, cells c → cells' c) : Frame regs parts cells' s t :=
  { h with memory := fun c hc => h.memory c (mt (sub c) hc) }

/-- A write of one byte is a write of a list of one, so its only cell is its address. -/
theorem Frame.write (regs : List Reg) (parts : List Part) (s : State) (a : Nat) (b : Byte) :
    Frame regs parts (fun c => c = a) s (s.setMem (s.mem.write a b)) :=
  (Frame.writeList regs parts s a [b]).mono_cells fun c hc => by
    simp only [cellsFrom, List.length_singleton] at hc
    omega

/-- A byte in range reads back as the value written to it. -/
theorem State.memRead_write_same (s : State) {a : Nat} (h : a < Config.memSize) (b : Byte) :
    (s.setMem (s.mem.write a b)).memRead a = .ok b := by
  rw [memRead_lt _ h, setMem_mem, Memory.read_write_same]

/-- Settles O7: in range the write is one cell of memory, out of range both accesses report the address. -/
theorem memoryWriteThenRead : Obligations.MemoryWriteThenRead := by
  intro s a b
  constructor
  · intro inside
    exact ⟨_, s.memWrite_lt inside b, s.memRead_write_same inside b, Frame.write [] [] s a b⟩
  · intro outside
    exact ⟨s.memWrite_ge outside b, s.memRead_ge outside⟩

/-- Settles O8: one case for each of the three places the two addresses can have against the end of memory. -/
theorem fetchIsBigEndian : Obligations.FetchIsBigEndian := by
  intro s a
  refine ⟨fun both => ?_, fun last => s.fetch_last last, fun outside => s.fetch_ge outside⟩
  exact ⟨_, _, _, s.memRead_lt (Nat.lt_of_succ_lt both), s.memRead_lt both, s.fetch_ok both, wordOfBytes_toNat _ _⟩

/-- An image that fits is written from the load offset on (R62). -/
theorem loadImage_ok (image : List Byte) (s : State) (h : image.length ≤ 3584) :
    loadImage image s = .next (s.setMem (s.mem.writeList Config.loadOffset image)) :=
  loadFrom_ok Config.loadOffset image s fun k hk => by
    simp only [Config.loadOffset, Config.memSize]
    omega

/-- A longer image fills the memory with its first 3584 bytes and faults at the next (R62, R201). -/
theorem loadImage_fault (image : List Byte) (s : State) (h : 3584 < image.length) :
    loadImage image s = raiseAt 0x200 (.outOfRangeMem 4096)
      (s.setMem (s.mem.writeList Config.loadOffset (image.take 3584))) :=
  loadFrom_fault Config.loadOffset image s 3584 h
    (fun j hj => by simp only [Config.loadOffset, Config.memSize]; omega)
    (by simp only [Config.loadOffset, Config.memSize]; omega)

/-- A byte of a loaded list, of at most 3584 bytes, reads as that byte. -/
theorem State.memRead_loaded (s : State) (bs : List Byte) (h : bs.length ≤ 3584) (k : Nat) (hk : k < bs.length) :
    (s.setMem (s.mem.writeList Config.loadOffset bs)).memRead (512 + k) = .ok bs[k] :=
  s.memRead_writeList Config.loadOffset k bs hk (by simp only [Config.loadOffset, Config.memSize]; omega)

/-- Settles O58: either the whole image is written, or its first 3584 bytes are and the run is faulted, so that no step
exists. -/
theorem imageLoad : Obligations.ImageLoad := by
  intro image s
  refine ⟨fun fits => ?fits, fun long => ?long⟩
  case fits =>
    exact ⟨_, loadImage_ok image s fits, s.memRead_loaded image fits,
      Frame.writeList [] [] s Config.loadOffset image⟩
  case long =>
    have taken : (image.take 3584).length = 3584 := List.length_take_of_le long.le
    refine ⟨_, _, loadImage_fault image s long, rfl, rfl, rfl, fun u next => ?noStep, fun k hk hlt => ?bytes, ?frame⟩
    case noStep =>
      rw [step_faulted rfl] at next
      cases next
    case bytes =>
      have read := s.memRead_loaded (image.take 3584) taken.le k (by omega)
      rw [List.getElem_take] at read
      exact read
    case frame =>
      have frame := Frame.writeList [] [] s Config.loadOffset (image.take 3584)
      rw [taken] at frame
      exact frame

end Sys2Proof.Machine
end

section
/-! The display instructions of 42_display.md against their statements: the clear screen (R141, R145). -/

namespace Sys2Proof.Machine

/-- `clear()` leaves the blank grid, and no other update is made (R141, R145). -/
theorem exec_cls (s : State) : exec .cls s = .next (s.setFb Config.blankScreen) := rfl

@[simp] theorem pixel_blankScreen (x : Fin 64) (y : Fin 32) : pixel Config.blankScreen x y = false := by
  simp only [pixel, Config.blankScreen, Fin.getElem_fin, Vector.getElem_replicate]

/-- Settles O42: the one update CLS makes puts the blank grid on the screen, and its frame is that of a screen change. -/
theorem clearScreen : Obligations.ClearScreen := by
  intro s
  have frame : Frame [] [.screen] noCells s (s.setFb Config.blankScreen) :=
    Frame.setFb [] (List.mem_singleton_self _) noCells s Config.blankScreen
  exact ⟨_, exec_cls s, pixel_blankScreen, frame⟩

end Sys2Proof.Machine
end

section
/-! The index instructions of 44_index_memory.md against their statements: LD F, Vx (R184) and its words Fx29. -/

namespace Sys2Proof

/-- A word of format XK as a number: the category, register and byte fields at their places (R72). -/
theorem wordXK_toNat (c : Nibble) (x : Reg) (kk : Byte) :
    (wordXK c x kk).toNat = c.toNat * 4096 + x.val * 256 + kk.toNat := by
  have hc := c.isLt
  have hx := x.isLt
  have hkk := kk.isLt
  have category : (c.setWidth 16 <<< 12 : Word).toNat = c.toNat <<< 12 := by
    simp only [BitVec.toNat_shiftLeft, BitVec.toNat_setWidth, Nat.shiftLeft_eq]
    omega
  have register : ((BitVec.ofFin x : Nibble).setWidth 16 <<< 8 : Word).toNat = x.val <<< 8 := by
    simp only [BitVec.toNat_shiftLeft, BitVec.toNat_setWidth, BitVec.toNat_ofFin, Nat.shiftLeft_eq]
    omega
  have byte : (kk.setWidth 16 : Word).toNat = kk.toNat := by
    simp only [BitVec.toNat_setWidth]
    omega
  have low : (x.val <<< 8 ||| kk.toNat) = x.val <<< 8 + kk.toNat := (Nat.shiftLeft_add_eq_or_of_lt hkk _).symm
  have lowLt : x.val <<< 8 + kk.toNat < 2 ^ 12 := by
    rw [Nat.shiftLeft_eq]
    omega
  rw [wordXK, BitVec.toNat_or, BitVec.toNat_or, category, register, byte, Nat.or_assoc, low,
    ← Nat.shiftLeft_add_eq_or_of_lt lowLt, Nat.shiftLeft_eq, Nat.shiftLeft_eq]
  omega

/-- A word of category F is decoded by its sub-op byte (R75, R77). -/
theorem decode_wordXK_misc (x : Reg) (kk : Byte) : decode (wordXK 0xF x kk) = decodeMisc (wordXK 0xF x kk) := by
  simp only [decode, fieldC_wordXK, BitVec.reduceToNat]

/-- The sub-op byte 0x29 of category F is LD F, whatever the register field (R75). -/
theorem decode_encode_ldF (x : Reg) : decode (encode (.ldF x)) = .ok (.ldF x) := by
  rw [encode, decode_wordXK_misc]
  simp only [decodeMisc, fieldKk_wordXK, fieldX_wordXK, BitVec.reduceToNat]

/-- The word Fx29 with its register digit written out. -/
theorem encode_ldF (x : Reg) : encode (.ldF x) = BitVec.ofNat 16 (0xF029 + 0x100 * x.val) := by
  have hx := x.isLt
  apply BitVec.eq_of_toNat_eq
  rw [encode, wordXK_toNat, BitVec.toNat_ofNat]
  simp only [BitVec.reduceToNat]
  omega

end Sys2Proof

namespace Sys2Proof.Machine

/-- LD F, Vx completes, and I is the only component written (R184). -/
theorem exec_ldF (x : Reg) (s : State) : exec (.ldF x) s = .next (s.setI (glyphAddress (s.getV x))) := rfl

/-- Five times a byte is at most 1275, so the address never wraps (R184). -/
theorem glyphAddress_toNat (v : Byte) : (glyphAddress v).toNat = 5 * v.toNat := by
  have hv := v.isLt
  rw [glyphAddress, BitVec.toNat_ofNat]
  omega

/-- Settles O50: the word Fx29 is the encoding of LD F, Vx, whose one update puts the unreduced product into I. -/
theorem glyphAddressIsFiveTimes : Obligations.GlyphAddressIsFiveTimes := by
  intro x s
  have decoded : decode (BitVec.ofNat 16 (0xF029 + 0x100 * x.val)) = .ok (.ldF x) :=
    encode_ldF x ▸ decode_encode_ldF x
  have frame : Frame [] [.index] noCells s (s.setI (glyphAddress (s.getV x))) :=
    Frame.setI [] (List.mem_singleton_self _) noCells s _
  exact ⟨decoded, _, exec_ldF x s, glyphAddress_toNat (s.getV x), frame⟩

end Sys2Proof.Machine
end

section
/-! The raises of a step of 60_exceptions.md against their statements: a fetched word that is not recognized (R203). -/

namespace Sys2Proof.Machine

/-- A fetched word that does not decode is raised in the state that the first two phases leave (R102, R203). -/
theorem step_unrecognized {s : State} {w : Word} {e : DecodeError} (running : s.run = .running)
    (fetched : s.fetch s.nextFetch = .ok w) (undecoded : decode w = .error e) :
    step s = raise (.unrecognizedInstruction w) s.enter := by
  simp only [step, running, State.enter_fetch, fetched, undecoded]

/-- After a fetch that succeeded, PC is the fetch address itself: both bytes were in memory, so phase 2 did not wrap
(R25, R54). -/
theorem State.enter_pc_toNat_of_fetch_ok {s : State} {w : Word} (fetched : s.fetch s.nextFetch = .ok w) :
    s.enter.pc.toNat = s.nextFetch := by
  have inMemory : s.nextFetch + 1 < 4096 := (State.fetch_ok_inv fetched).1
  exact State.enter_pc_toNat (by omega)

/-- Settles O15: the step is one raise in the entered state, whose PC is the fetch address, and a faulted state has no
step. -/
theorem unrecognizedWordFaults : Obligations.UnrecognizedWordFaults := by
  rintro s w running fetched ⟨e, undecoded⟩
  refine ⟨_, _, step_unrecognized running fetched undecoded, rfl, State.enter_pc_toNat_of_fetch_ok fetched, rfl,
    fun u stepped => ?noStep⟩
  case noStep =>
    rw [step_faulted rfl] at stepped
    cases stepped

end Sys2Proof.Machine
end

section
/-! The decoder and the encoder of 30_encoding.md against their statements: the round trip both ways (R75), the words
that are Unrecognized (R77), and instructions as bytes (R70) and as source lines (R85, R86). -/

namespace Sys2Proof

/-! A word is made of its fields -/

@[simp] theorem wordA_fields (w : Word) : wordA (fieldC w) (fieldNnn w) = w := by
  apply BitVec.eq_of_getLsbD_eq
  intro k hk
  interval_cases k <;> simp [wordA, fieldC, fieldNnn]

theorem ofFin_fieldX (w : Word) : (BitVec.ofFin (fieldX w) : Nibble) = w.extractLsb' 8 4 := rfl

theorem ofFin_fieldY (w : Word) : (BitVec.ofFin (fieldY w) : Nibble) = w.extractLsb' 4 4 := rfl

@[simp] theorem wordXK_fields (w : Word) : wordXK (fieldC w) (fieldX w) (fieldKk w) = w := by
  apply BitVec.eq_of_getLsbD_eq
  intro k hk
  interval_cases k <;> simp [wordXK, fieldC, ofFin_fieldX, fieldKk]

@[simp] theorem wordXYN_fields (w : Word) : wordXYN (fieldC w) (fieldX w) (fieldY w) (fieldN w) = w := by
  apply BitVec.eq_of_getLsbD_eq
  intro k hk
  interval_cases k <;> simp [wordXYN, fieldC, ofFin_fieldX, ofFin_fieldY, fieldN]

theorem fieldC_toNat (w : Word) : (fieldC w).toNat = w.toNat / 4096 := by
  have := w.isLt
  simp only [fieldC, BitVec.extractLsb'_toNat, Nat.shiftRight_eq_div_pow]
  omega

theorem fieldN_toNat (w : Word) : (fieldN w).toNat = w.toNat % 16 := by
  simp [fieldN]

theorem fieldKk_toNat (w : Word) : (fieldKk w).toNat = w.toNat % 256 := by
  simp [fieldKk]

/-! The word of each format, from the fields a match has fixed -/

section
variable {w : Word} {c : Nibble} (category : (fieldC w).toNat = c.toNat)
include category

theorem wordA_eq : wordA c (fieldNnn w) = w := by
  rw [← BitVec.eq_of_toNat_eq category, wordA_fields]

theorem wordXK_eq : wordXK c (fieldX w) (fieldKk w) = w := by
  rw [← BitVec.eq_of_toNat_eq category, wordXK_fields]

theorem wordXS_eq {kk : Byte} (sub : (fieldKk w).toNat = kk.toNat) : wordXK c (fieldX w) kk = w := by
  rw [← BitVec.eq_of_toNat_eq sub, wordXK_eq category]

theorem wordXYN_eq : wordXYN c (fieldX w) (fieldY w) (fieldN w) = w := by
  rw [← BitVec.eq_of_toNat_eq category, wordXYN_fields]

theorem wordXYS_eq {n : Nibble} (sub : (fieldN w).toNat = n.toNat) : wordXYN c (fieldX w) (fieldY w) n = w := by
  rw [← BitVec.eq_of_toNat_eq sub, wordXYN_eq category]

end

/-! Encoding and then decoding -/

/-- A word of category 8 is decoded by its sub-op nibble (R75, R77). -/
theorem decode_wordXYN_alu (x y : Reg) (n : Nibble) : decode (wordXYN 0x8 x y n) = decodeAlu (wordXYN 0x8 x y n) := by
  simp only [decode, fieldC_wordXYN, BitVec.reduceToNat]

/-- A word of category E is decoded by its sub-op byte (R75, R77). -/
theorem decode_wordXK_key (x : Reg) (kk : Byte) : decode (wordXK 0xE x kk) = decodeKey (wordXK 0xE x kk) := by
  simp only [decode, fieldC_wordXK, BitVec.reduceToNat]

/-- Settles O1: the category selects the row's format, the sub-op the row, and the fields give the operands back. -/
theorem decodeOfEncodedInstruction : Obligations.DecodeOfEncodedInstruction := by
  intro i
  cases i
  case cls => rfl
  case ret => rfl
  case jp | call | ldI | jpV0 => simp [encode, decode]
  case seImm | sneImm | ldImm | addImm | rnd => simp [encode, decode]
  case seReg | sneReg | drw => simp [encode, decode]
  case ldReg | or | and | xor | addReg | sub | shr | subn | shl =>
    rw [encode, decode_wordXYN_alu]
    simp [decodeAlu]
  case skp | sknp =>
    rw [encode, decode_wordXK_key]
    simp [decodeKey]
  case ldVxDT | ldVxK | ldDTVx | ldSTVx | addI | ldF | ldB | storeRegs | loadRegs =>
    rw [encode, decode_wordXK_misc]
    simp [decodeMisc]

/-! Decoding and then encoding -/

theorem encode_of_decodeAlu {w : Word} {i : Instr} (category : (fieldC w).toNat = 0x8) (h : decodeAlu w = .ok i) :
    encode i = w := by
  unfold decodeAlu at h
  split at h <;> cases h
  all_goals exact wordXYS_eq category ‹_›

theorem encode_of_decodeKey {w : Word} {i : Instr} (category : (fieldC w).toNat = 0xE) (h : decodeKey w = .ok i) :
    encode i = w := by
  unfold decodeKey at h
  split at h <;> cases h
  all_goals exact wordXS_eq category ‹_›

theorem encode_of_decodeMisc {w : Word} {i : Instr} (category : (fieldC w).toNat = 0xF) (h : decodeMisc w = .ok i) :
    encode i = w := by
  unfold decodeMisc at h
  split at h <;> cases h
  all_goals exact wordXS_eq category ‹_›

/-- Settles O2: in each row the fields that the match fixed and the operands that it read are the whole word. -/
theorem recognizedWordIsItsEncoding : Obligations.RecognizedWordIsItsEncoding := by
  intro w i h
  unfold decode at h
  -- case h_(c+1) is category c, and h_17 the unreachable rest
  split at h
  case h_1 =>
    split at h <;> cases h
    all_goals exact BitVec.eq_of_toNat_eq (Eq.symm ‹_›)
  case h_6 | h_10 =>
    split at h <;> cases h
    next category zero => exact wordXYS_eq category (congrArg BitVec.toNat zero)
  case h_9 category => exact encode_of_decodeAlu category h
  case h_15 category => exact encode_of_decodeKey category h
  case h_16 category => exact encode_of_decodeMisc category h
  case h_2 category | h_3 category | h_11 category | h_12 category => cases h; exact wordA_eq category
  case h_4 category | h_5 category | h_7 category | h_8 category | h_13 category => cases h; exact wordXK_eq category
  case h_14 category => cases h; exact wordXYN_eq category
  case h_17 => cases h

/-! The words that are Unrecognized -/

theorem decodeAlu_error_iff {w : Word} {e : DecodeError} :
    decodeAlu w = .error e ↔
      (fieldN w).toNat ∈ [0x8, 0x9, 0xA, 0xB, 0xC, 0xD, 0xF] ∧ .unrecognized w = e := by
  unfold decodeAlu
  split
  case h_10 =>
    have bound := (fieldN w).isLt
    generalize (fieldN w).toNat = n at *
    interval_cases n <;> simp_all
  all_goals simp [*]

theorem decodeKey_error_iff {w : Word} {e : DecodeError} :
    decodeKey w = .error e ↔ (fieldKk w).toNat ∉ [0x9E, 0xA1] ∧ .unrecognized w = e := by
  unfold decodeKey
  split <;> simp_all

theorem decodeMisc_error_iff {w : Word} {e : DecodeError} :
    decodeMisc w = .error e ↔
      (fieldKk w).toNat ∉ [0x07, 0x0A, 0x15, 0x18, 0x1E, 0x29, 0x33, 0x55, 0x65] ∧ .unrecognized w = e := by
  unfold decodeMisc
  split <;> simp_all

/-- The list of R77, category by category. -/
def IsUnrecognized (w : Word) : Prop :=
  ((fieldC w).toNat = 0x0 ∧ w.toNat ≠ 0x00E0 ∧ w.toNat ≠ 0x00EE) ∨
  ((fieldC w).toNat = 0x5 ∧ (fieldN w).toNat ≠ 0) ∨
  ((fieldC w).toNat = 0x8 ∧ (fieldN w).toNat ∈ [0x8, 0x9, 0xA, 0xB, 0xC, 0xD, 0xF]) ∨
  ((fieldC w).toNat = 0x9 ∧ (fieldN w).toNat ≠ 0) ∨
  ((fieldC w).toNat = 0xE ∧ (fieldKk w).toNat ∉ [0x9E, 0xA1]) ∨
  ((fieldC w).toNat = 0xF ∧ (fieldKk w).toNat ∉ [0x07, 0x0A, 0x15, 0x18, 0x1E, 0x29, 0x33, 0x55, 0x65])

/-- The one error of the decoder is `Unrecognized(w)`, on the list's words (R77). -/
theorem decode_error_iff {w : Word} {e : DecodeError} :
    decode w = .error e ↔ IsUnrecognized w ∧ .unrecognized w = e := by
  unfold decode IsUnrecognized
  -- case h_(c+1) is category c, and h_17 the unreachable rest
  split
  case h_1 category =>
    split <;> simp_all
  case h_6 category | h_10 category =>
    have zero : (fieldN w).toNat = 0 ↔ fieldN w = 0 := BitVec.toNat_inj (y := 0)
    split <;> simp_all
  case h_9 category => simp [category, decodeAlu_error_iff]
  case h_15 category => simp [category, decodeKey_error_iff]
  case h_16 category => simp [category, decodeMisc_error_iff]
  case h_17 =>
    have bound := (fieldC w).isLt
    generalize (fieldC w).toNat = c at *
    interval_cases c <;> contradiction
  all_goals simp [*]

/-- Settles O3: the list in terms of the word's fields is the one in terms of its number. -/
theorem unrecognizedWordsExactly : Obligations.UnrecognizedWordsExactly := by
  intro w
  refine ⟨fun e h => (decode_error_iff.1 h).2.symm, ?_⟩
  have list : (∃ e, decode w = .error e) ↔ IsUnrecognized w := by simp [decode_error_iff]
  rw [list, IsUnrecognized, fieldC_toNat, fieldN_toNat, fieldKk_toNat]

/-! Instructions as bytes and as source lines -/

/-- The first two bytes are decoded as one word, high byte first (R70). -/
theorem decodeBytes_cons (high low : Byte) (rest : List Byte) {i : Instr}
    (h : decode (wordOfBytes high low) = .ok i) : decodeBytes (high :: low :: rest) = .ok (i, rest) := by
  simp only [decodeBytes, h]

/-- Settles O4: the two bytes make up the encoding, which decodes to the instruction. -/
theorem instructionBytesRoundTrip : Obligations.InstructionBytesRoundTrip := by
  constructor
  · intro i rest
    apply decodeBytes_cons
    rw [wordOfBytes_bytes, decodeOfEncodedInstruction]
  · intro bs short
    match bs, short with
    | [], _ => rfl
    | [_], _ => rfl

/-- Settles O5: each word is decoded by evaluation. -/
theorem wordsOfTheOpcodeTable : Obligations.WordsOfTheOpcodeTable := by
  unfold Obligations.WordsOfTheOpcodeTable
  decide

/-! The checks of a source line pass on the operands of an instruction -/

@[simp] theorem checkReg_val (x : Reg) : AsmOperand.checkReg x.val = .ok x := by
  simp [AsmOperand.checkReg]

@[simp] theorem checkAddr_toNat (nnn : Addr12) : AsmOperand.checkAddr nnn.toNat = .ok nnn := by
  simp [AsmOperand.checkAddr, nnn.isLt]

@[simp] theorem checkImm_toNat (kk : Byte) : AsmOperand.checkImm kk.toNat = .ok kk := by
  simp [AsmOperand.checkImm, kk.isLt]

@[simp] theorem checkCount_toNat (n : Nibble) : AsmOperand.checkCount n.toNat = .ok n := by
  simp [AsmOperand.checkCount, n.isLt]

@[simp] theorem checkXY_val (f : Reg → Reg → Instr) (x y : Reg) : AsmLine.checkXY f x y = .ok (f x y) := by
  simp [AsmLine.checkXY, bind, Except.bind]

@[simp] theorem checkXK_val (f : Reg → Byte → Instr) (x : Reg) (kk : Byte) :
    AsmLine.checkXK f x kk.toNat = .ok (f x kk) := by
  simp [AsmLine.checkXK, bind, Except.bind]

@[simp] theorem checkX_val (f : Reg → Instr) (x : Reg) : AsmLine.checkX f x = .ok (f x) := by
  simp [AsmLine.checkX, bind, Except.bind]

@[simp] theorem checkA_toNat (f : Addr12 → Instr) (nnn : Addr12) : AsmLine.checkA f nnn.toNat = .ok (f nnn) := by
  simp [AsmLine.checkA, bind, Except.bind]

/-- Settles O6: every line of `toAsm` meets its own row of the check, whose operands are in range. -/
theorem assemblyRoundTrip : Obligations.AssemblyRoundTrip := by
  refine ⟨fun i => ?_, fun x => ⟨checkXY_val .shr x 0, checkXY_val .shl x 0⟩⟩
  cases i
  case cls | ret => rfl
  case jp nnn | call nnn | ldI nnn | jpV0 nnn => exact checkA_toNat _ nnn
  case drw x y n => simp [Instr.toAsm, AsmLine.check, bind, Except.bind]
  case seImm x kk | sneImm x kk | ldImm x kk | addImm x kk | rnd x kk => exact checkXK_val _ x kk
  case seReg x y | sneReg x y | ldReg x y | or x y | and x y | xor x y | addReg x y | sub x y | shr x y | subn x y
      | shl x y => exact checkXY_val _ x y
  all_goals exact checkX_val _ _

end Sys2Proof
end

section
/-! What an instruction can do to memory, to control and to the stack, and how it can raise, each said once over all
instructions. -/

namespace Sys2Proof.Machine

/-- How an instruction can raise: its fault kind, and the state in which it raises, where the effects that precede the
raise stand (60_exceptions.md R202, R204, R205). -/
inductive Raises (s : State) : Instr → FaultKind → State → Prop
  | overflow (nnn : Addr12) : s.sp = some 15 → Raises s (.call nnn) .stackOverflow s
  | underflow : s.sp = none → Raises s .ret .stackUnderflow s
  | draw (x y : Reg) (n : Nibble) (k : Nat) : k < n.toNat → (∀ j < k, s.i.toNat + j < Config.memSize) →
      Config.memSize ≤ s.i.toNat + k →
      Raises s (.drw x y n) (.outOfRangeMem (s.i.toNat + k)) s
  | digits (x : Reg) (k : Nat) : k < 3 → (∀ j < k, s.i.toNat + j < Config.memSize) →
      Config.memSize ≤ s.i.toNat + k →
      Raises s (.ldB x) (.outOfRangeMem (s.i.toNat + k))
        (s.setMem (s.mem.writeList s.i.toNat ((bcdDigits (s.getV x)).take k)))
  | store (x : Reg) (k : Nat) : k ≤ x.val → (∀ j < k, s.i.toNat + j < Config.memSize) →
      Config.memSize ≤ s.i.toNat + k →
      Raises s (.storeRegs x) (.outOfRangeMem (s.i.toNat + k))
        (s.setMem (s.mem.writeList s.i.toNat (((regsUpTo x).map s.getV).take k)))
  | load (x : Reg) (k : Nat) (t : State) : k ≤ x.val → (∀ j < k, s.i.toNat + j < Config.memSize) →
      Config.memSize ≤ s.i.toNat + k → t = { s with v := t.v } →
      Raises s (.loadRegs x) (.outOfRangeMem (s.i.toNat + k)) t

/-- A fault an instruction answers is one it can raise, recorded with its own address (R200). -/
theorem exec_fault {i : Instr} {s : State} {f : Fault} (h : exec i s = .fault f) :
    ∃ k t, Raises s i k t ∧ f = .raised ⟨k, s.pc⟩ (t.setRun (.faulted ⟨k, s.pc⟩)) := by
  cases i
  case ret =>
    rcases execRet_cases s with ⟨empty, e⟩ | ⟨k, -, e⟩ <;> rw [e] at h <;> cases h
    exact ⟨_, _, .underflow empty, rfl⟩
  case call nnn =>
    rcases execCall_cases nnn s with ⟨full, e⟩ | ⟨k, -, -, e⟩ <;> rw [e] at h <;> cases h
    exact ⟨_, _, .overflow nnn full, rfl⟩
  case drw x y n =>
    rcases execDrw_cases x y n s with ⟨-, b, -, e⟩ | ⟨k, hk, inside, out, e⟩ <;> rw [e] at h <;> cases h
    exact ⟨_, _, .draw x y n k hk inside out, rfl⟩
  case loadRegs x =>
    rcases execLoadRegs_cases x s with ⟨-, t, e, -⟩ | ⟨k, hk, inside, out, t, e, regs, -⟩ <;>
      rw [e] at h <;> cases h
    exact ⟨_, _, .load x k t hk inside out regs, by rw [regs]⟩
  case ldB x =>
    rcases memWrites_cases s.i.toNat (bcdDigits (s.getV x)) s with ⟨e, -⟩ | ⟨k, hk, inside, out, e⟩ <;>
      cases e.symm.trans h
    exact ⟨_, _, .digits x k hk inside out, rfl⟩
  case storeRegs x =>
    rcases memWrites_cases s.i.toNat ((regsUpTo x).map s.getV) s with ⟨e, -⟩ | ⟨k, hk, inside, out, e⟩ <;>
      cases e.symm.trans h
    rw [List.length_map, regsUpTo_length] at hk
    exact ⟨_, _, .store x k (Nat.le_of_lt_succ hk) inside out, rfl⟩
  all_goals cases h

/-- Memory after an instruction is the old one with a list of bytes, which may be empty, written from I on and inside
the memory. -/
def StoredFromI (s t : State) : Prop :=
  ∃ bs : List Byte, (∀ k < bs.length, s.i.toNat + k < Config.memSize) ∧ t.mem = s.mem.writeList s.i.toNat bs

theorem StoredFromI.of_mem_eq {s t : State} (h : t.mem = s.mem) : StoredFromI s t :=
  ⟨[], fun _ hk => absurd hk (Nat.not_lt_zero _), h⟩

theorem StoredFromI.wf {s t : State} (h : StoredFromI s t) (canonical : s.mem.wf) : t.mem.wf := by
  obtain ⟨bs, inside, e⟩ := h
  rw [e]
  exact Memory.wf_writeList canonical bs inside

theorem State.skipIf_mem (s : State) (b : Bool) : (s.skipIf b).mem = s.mem := by
  cases b <;> rfl

theorem State.setResultAndShlFlag_mem (s : State) (x : Reg) (b : Byte) (f : Bool) :
    (s.setResultAndShlFlag x b f).mem = s.mem := by
  unfold setResultAndShlFlag
  split <;> rfl

/-- The memory an instruction that completes leaves (20_memory.md R56). -/
theorem exec_next_memory {i : Instr} {s t : State} (h : exec i s = .next t) : StoredFromI s t := by
  cases i
  case ret =>
    rcases execRet_cases s with ⟨-, e⟩ | ⟨k, -, e⟩ <;> rw [e] at h <;> cases h
    exact .of_mem_eq rfl
  case call nnn =>
    rcases execCall_cases nnn s with ⟨-, e⟩ | ⟨k, -, -, e⟩ <;> rw [e] at h <;> cases h
    exact .of_mem_eq rfl
  case drw x y n =>
    rcases execDrw_cases x y n s with ⟨-, b, -, e⟩ | ⟨k, -, -, -, e⟩ <;> rw [e] at h <;> cases h
    exact .of_mem_eq rfl
  case loadRegs x =>
    rcases execLoadRegs_cases x s with ⟨-, u, e, regs, -⟩ | ⟨k, -, -, -, u, e, -⟩ <;> rw [e] at h <;> cases h
    exact .of_mem_eq (by rw [regs])
  case ldB x =>
    rcases memWrites_cases s.i.toNat (bcdDigits (s.getV x)) s with ⟨e, inside⟩ | ⟨k, -, -, -, e⟩ <;>
      cases e.symm.trans h
    exact ⟨_, inside, rfl⟩
  case storeRegs x =>
    rcases memWrites_cases s.i.toNat ((regsUpTo x).map s.getV) s with ⟨e, inside⟩ | ⟨k, -, -, -, e⟩ <;>
      cases e.symm.trans h
    exact ⟨_, inside, rfl⟩
  case seImm | sneImm | seReg | sneReg | skp | sknp =>
    cases h
    exact .of_mem_eq (s.skipIf_mem _)
  case shl =>
    cases h
    exact .of_mem_eq (s.setResultAndShlFlag_mem _ _ _)
  case ldVxK =>
    cases h
    exact .of_mem_eq (by split <;> rfl)
  all_goals
    cases h
    exact .of_mem_eq rfl

/-- The bytes written before a raise lie inside the memory (R204). -/
theorem Raises.memory {s t : State} {i : Instr} {k : FaultKind} (h : Raises s i k t) : StoredFromI s t := by
  have taken {m : Nat} (bs : List Byte) (inside : ∀ j < m, s.i.toNat + j < Config.memSize) :
      ∀ j < (bs.take m).length, s.i.toNat + j < Config.memSize := fun j hj =>
    inside j (by rw [List.length_take] at hj; omega)
  cases h with
  | overflow | underflow | draw => exact .of_mem_eq rfl
  | load x k t hk inside out regs => exact .of_mem_eq (by rw [regs])
  | digits x k hk inside out => exact ⟨_, taken _ inside, rfl⟩
  | store x k hk inside out => exact ⟨_, taken _ inside, rfl⟩

/-- What an instruction can do to PC and the flag (40_control.md R101): nothing, or, if it is one of the transfers, set
the flag and PC to A, to A + 4, to an address operand, to the indexed sum, or to the top slot. -/
theorem exec_next_control {i : Instr} {s t : State} (h : exec i s = .next t) :
    (t.pc = s.pc ∧ t.advSuppress = s.advSuppress) ∨
    mayTransfer i = true ∧ t.advSuppress = true ∧
      (t.pc = s.pc ∨ t.pc = s.pc + 4 ∨ (∃ nnn : Addr12, t.pc = zext16 nnn) ∨
       (∃ nnn : Addr12, t.pc = BitVec.ofNat 16 (nnn.toNat + (s.getV V0).toNat)) ∨
       ∃ k, s.sp = some k ∧ t.pc = s.stack[k]) := by
  have frame := exec_frame i s t h
  cases i
  case ret =>
    rcases execRet_cases s with ⟨-, e⟩ | ⟨k, top, e⟩ <;> rw [e] at h <;> cases h
    exact .inr ⟨rfl, rfl, .inr (.inr (.inr (.inr ⟨k, top, rfl⟩)))⟩
  case call nnn =>
    rcases execCall_cases nnn s with ⟨-, e⟩ | ⟨k, -, -, e⟩ <;> rw [e] at h <;> cases h
    exact .inr ⟨rfl, rfl, .inr (.inr (.inl ⟨nnn, rfl⟩))⟩
  case jp nnn =>
    cases h
    exact .inr ⟨rfl, rfl, .inr (.inr (.inl ⟨nnn, rfl⟩))⟩
  case jpV0 nnn =>
    cases h
    exact .inr ⟨rfl, rfl, .inr (.inr (.inr (.inl ⟨nnn, rfl⟩)))⟩
  case seImm | sneImm | seReg | sneReg | skp | sknp =>
    cases h
    unfold State.skipIf
    split
    · exact .inr ⟨rfl, rfl, .inr (.inl rfl)⟩
    · exact .inl ⟨rfl, rfl⟩
  case ldVxK =>
    cases h
    split
    · exact .inr ⟨rfl, rfl, .inl rfl⟩
    · exact .inl ⟨rfl, rfl⟩
  all_goals exact .inl (frame.control (by simp [touches, mayTransfer]))

/-- What an instruction can do to the stack and SP (10_state.md R28): nothing, a push of A + 2 or a pop. -/
theorem exec_next_stack {i : Instr} {s t : State} (h : exec i s = .next t) :
    (t.stack = s.stack ∧ t.sp = s.sp) ∨
    (∃ (nnn : Addr12) (k : Fin 16), i = .call nnn ∧ (k.val : Int) = s.spValue + 1 ∧
      t.stack = s.stack.set k (s.pc + 2) ∧ t.sp = some k) ∨
    ∃ k, i = .ret ∧ s.sp = some k ∧ t.stack = s.stack ∧ t.sp = if k = 0 then none else some (k - 1) := by
  have frame := exec_frame i s t h
  cases i
  case ret =>
    rcases execRet_cases s with ⟨-, e⟩ | ⟨k, top, e⟩ <;> rw [e] at h <;> cases h
    exact .inr (.inr ⟨k, rfl, top, rfl, rfl⟩)
  case call nnn =>
    rcases execCall_cases nnn s with ⟨-, e⟩ | ⟨k, -, hk, e⟩ <;> rw [e] at h <;> cases h
    exact .inr (.inl ⟨nnn, k, rfl, hk, rfl, rfl⟩)
  all_goals exact .inl (frame.stack (by simp [touches, mayTransfer]))

end Sys2Proof.Machine
end

section
/-! The invariants of every step: canonical memory (20_memory.md section 1) and the bounds of PC and of the saved return
addresses (40_control.md sections 1 to 3). -/

namespace Sys2Proof.Machine

/-- Settles O10: a step leaves the memory of the entered state with at most a list of bytes written inside it. -/
theorem stepKeepsMemoryCanonical : Obligations.StepKeepsMemoryCanonical := by
  intro s canonical
  constructor
  · intro t h
    obtain ⟨-, w, i, -, -, he⟩ := step_next h
    exact (exec_next_memory he).wf canonical
  · intro r t h
    rcases step_fault h with ⟨_, -, e⟩ | ⟨-, ⟨k, -, e⟩ | ⟨w, _, -, -, e⟩ | ⟨w, i, -, -, e⟩⟩
    · cases e
    · cases e
      exact canonical
    · cases e
      exact canonical
    · obtain ⟨k, u, raises, ⟨⟩⟩ := exec_fault e
      exact raises.memory.wf canonical

/-- Every slot in use holds at most 4096: the part of `State.CodeBounded` about the stack. -/
def State.StackBounded (s : State) : Prop :=
  ∀ k : Fin 16, (∃ top, s.sp = some top ∧ k ≤ top) → s.stack[k].toNat ≤ 4096

/-- The farthest an instruction at 4094 or below goes is the indexed jump to 0xFFF + 0xFF (R111). -/
theorem exec_next_pc_le {i : Instr} {s t : State} (h : exec i s = .next t) (pc : s.pc.toNat ≤ 4094)
    (slots : s.StackBounded) : t.pc.toNat ≤ 0x10FE := by
  rcases exec_next_control h with ⟨e, -⟩ | ⟨-, -, e | e | ⟨nnn, e⟩ | ⟨nnn, e⟩ | ⟨k, top, e⟩⟩
  · rw [e]; omega
  · rw [e]; omega
  · rw [e]; bv_omega
  · have := nnn.isLt
    rw [e, zext16, BitVec.toNat_setWidth]
    omega
  · have := nnn.isLt
    have := (s.getV V0).isLt
    rw [e, BitVec.toNat_ofNat]
    omega
  · have := slots k ⟨k, top, k.le_refl⟩
    rw [e]
    omega

/-- A pushed return address is at most 4096, and a pop only frees a slot. -/
theorem exec_next_stackBounded {i : Instr} {s t : State} (h : exec i s = .next t) (pc : s.pc.toNat ≤ 4094)
    (slots : s.StackBounded) : t.StackBounded := by
  intro j inUse
  rcases exec_next_stack h with ⟨stack, sp⟩ | ⟨_, k, -, hk, stack, sp⟩ | ⟨k, -, top, stack, sp⟩
  · rw [stack]
    exact slots j (sp ▸ inUse)
  · obtain ⟨_, e, hj⟩ := inUse
    cases sp.symm.trans e
    simp only [stack, Fin.getElem_fin, Vector.getElem_set]
    split
    · bv_omega
    · next other =>
      refine slots j ?_
      rcases hs : s.sp with _ | top
      · simp only [State.spValue, hs] at hk
        omega
      · refine ⟨top, rfl, ?_⟩
        simp only [State.spValue, hs] at hk
        omega
  · rw [stack]
    refine slots j ⟨k, top, ?_⟩
    obtain ⟨u, e, hj⟩ := inUse
    rw [sp] at e
    split at e
    · cases e
    · next nonzero =>
      cases e
      have : (k - 1).val ≤ k.val := by
        rw [Fin.val_sub_one_of_ne_zero nonzero]
        omega
      omega

/-- PC within its bound leaves the next fetch address within 16 bits (R25). -/
theorem State.nextFetch_lt_of_pc {s : State} (pc : s.pc.toNat ≤ 0x10FE) : s.nextFetch < 65536 := by
  unfold nextFetch
  split <;> omega

/-- Settles O11: an instruction that was fetched stands at 4094 or below, and from there neither PC nor the stack leaves
its bounds. -/
theorem stepKeepsCodeBounds : Obligations.StepKeepsCodeBounds := by
  rintro s t ⟨-, slots⟩ h
  obtain ⟨-, w, i, fetched, -, he⟩ := step_next h
  rw [State.enter_fetch] at fetched
  have inMemory : s.nextFetch + 1 < 4096 := (State.fetch_ok_inv fetched).1
  have pc : s.enter.pc.toNat ≤ 4094 := by
    rw [State.enter_pc_toNat_of_fetch_ok fetched]
    omega
  have bound := exec_next_pc_le he pc slots
  exact ⟨⟨bound, exec_next_stackBounded he pc slots⟩, State.nextFetch_lt_of_pc bound⟩

/-- Settles O12: no cell of memory is listed, PC is 0x200, and no slot is in use. -/
theorem resetMeetsInvariants : Obligations.ResetMeetsInvariants :=
  ⟨Memory.wf_nil, ⟨by decide, fun _ ⟨_, used, _⟩ => nomatch used⟩, rfl⟩

end Sys2Proof.Machine
end

section
/-! A step of 40_control.md section 1 against its statements: its phases, the raises of the fetch, the run status
(60_exceptions.md), the step that waits for a key (43_keys_timers.md) and the end of a run (70_reset_and_hazards.md). -/

namespace Sys2Proof.Machine

/-- A step whose word decodes is the instruction in the state that phases 1 and 2 leave (R100). -/
theorem step_decoded {s : State} {w : Word} {i : Instr} (running : s.run = .running)
    (fetched : s.fetch s.nextFetch = .ok w) (decoded : decode w = .ok i) : step s = exec i s.enter := by
  simp only [step, running, State.enter_fetch, fetched, decoded]

/-- A fetch that fails is raised in the state that phases 1 and 2 leave (R102). -/
theorem step_fetch_error {s : State} {k : FaultKind} (running : s.run = .running)
    (failed : s.fetch s.nextFetch = .error k) : step s = raise k s.enter := by
  simp only [step, running, State.enter_fetch, failed]

/-- Settles O13: the fetch sees the same bytes before and after phases 1 and 2. -/
theorem stepRunsTheDecodedInstruction : Obligations.StepRunsTheDecodedInstruction :=
  fun _ _ _ => step_decoded

/-- Settles O14: the timers are `decay`, and every other component is read off the update. -/
theorem enterTicksAndAdvances : Obligations.EnterTicksAndAdvances := by
  intro s
  refine ⟨decay_toNat _ _, decay_toNat _ _, rfl, State.enter_pc_toNat, rfl, fun e es scheduled => ?scheduled,
    fun empty => ?free, fun _ => rfl, rfl, rfl, rfl, rfl, fun _ => rfl, rfl, rfl⟩
  case scheduled => simp [State.nextInput, scheduled]
  case free => simp [State.nextInput, empty]

/-- Settles O16: the fetch fails at its own address, or at the second byte when the first is the last of memory. -/
theorem fetchOutOfRangeFaults : Obligations.FetchOutOfRangeFaults := by
  intro s running
  constructor
  · intro outside
    exact ⟨_, _, step_fetch_error running (s.fetch_ge outside), rfl, rfl, rfl⟩
  · intro last
    have failed : s.fetch s.nextFetch = .error (.outOfRangeMem 4096) := by
      rw [last]
      exact s.fetch_last rfl
    exact ⟨_, _, step_fetch_error running failed, rfl, rfl, rfl⟩

/-- A raise leaves the faulted state, whose PC is the record's. -/
theorem raise_eq_raised {k : FaultKind} {s t : State} {r : FaultRecord} (h : raise k s = .fault (.raised r t)) :
    r.pc = s.pc ∧ t = s.setRun (.faulted r) := by
  cases h
  exact ⟨rfl, rfl⟩

/-- A step that raises does so in a state with the switches of the one before it (R36). -/
theorem step_raised {s t : State} {r : FaultRecord} (h : step s = .fault (.raised r t)) :
    s.run = .running ∧ ∃ k u, raise k u = .fault (.raised r t) ∧ u.switches = s.switches := by
  rcases step_fault h with ⟨_, -, e⟩ | ⟨running, ⟨k, -, e⟩ | ⟨w, _, -, -, e⟩ | ⟨w, i, -, -, e⟩⟩
  · cases e
  · exact ⟨running, _, _, e, rfl⟩
  · exact ⟨running, _, _, e, rfl⟩
  · rcases exec_next_or_raise i s.enter with ⟨u, next, -⟩ | ⟨k, u, raised, -, switches⟩
    · cases next.symm.trans e
    · exact ⟨running, k, u, raised ▸ e, switches⟩

/-- Settles O17: every fault of a step is one raise, and an instruction that completes keeps the run status. -/
theorem runStatusOfEveryStep : Obligations.RunStatusOfEveryStep := by
  intro s
  refine ⟨fun r t h => ?raised, fun t h => ?next, fun r => step_faulted⟩
  case raised =>
    obtain ⟨running, k, u, raised, switches⟩ := step_raised h
    obtain ⟨pc, rfl⟩ := raise_eq_raised raised
    exact ⟨running, rfl, pc, switches, step_faulted rfl⟩
  case next =>
    obtain ⟨running, w, i, -, -, he⟩ := step_next h
    have frame := exec_frame i s.enter t he
    exact ⟨running, frame.run.trans running, frame.config⟩

theorem State.spValue_of_full {s : State} (h : s.sp = some 15) : s.spValue = 15 := by
  simp [spValue, h]

theorem State.spValue_of_empty {s : State} (h : s.sp = none) : s.spValue = -1 := by
  simp [spValue, h]

/-- Settles O18: the fault is one of the six raises, each of which has its info within the instruction's reach. -/
theorem faultsOfEveryInstruction : Obligations.FaultsOfEveryInstruction := by
  intro i s f h
  obtain ⟨k, t, raises, rfl⟩ := exec_fault h
  refine ⟨k, _, rfl, ?_⟩
  cases raises with
  | overflow nnn full => exact .inl ⟨rfl, ⟨nnn, rfl⟩, State.spValue_of_full full⟩
  | underflow empty => exact .inr (.inl ⟨rfl, rfl, State.spValue_of_empty empty⟩)
  | draw x y n k hk _ out =>
    exact .inr (.inr ⟨_, rfl, out, by omega, .inl ⟨x, y, n, rfl, by omega⟩⟩)
  | digits x k hk _ out =>
    exact .inr (.inr ⟨_, rfl, out, by omega, .inr (.inl ⟨x, rfl, by omega⟩)⟩)
  | store x k hk _ out =>
    exact .inr (.inr ⟨_, rfl, out, by omega, .inr (.inr (.inl ⟨x, rfl, by omega⟩))⟩)
  | load x k _ hk _ out =>
    exact .inr (.inr ⟨_, rfl, out, by omega, .inr (.inr (.inr ⟨x, rfl, by omega⟩))⟩)

theorem exec_ne_refused (i : Instr) (s : State) (x : Refusal) : exec i s ≠ .refused x := by
  rcases exec_next_or_raise i s with ⟨t, h, -⟩ | ⟨k, t, h, -⟩ <;> rw [h] <;> nofun

/-- Settles O19: an instruction completes or raises, and so does every other end of a step. -/
theorem nothingIsRefused : Obligations.NothingIsRefused := by
  refine fun s x => ⟨?_, fun i => exec_ne_refused i s x⟩
  unfold step
  split
  · nofun
  · split
    · nofun
    · split
      · exact exec_ne_refused _ _ x
      · nofun

/-! The waiting step -/

/-- With no key LD Vx, K is a transfer to its own address (R164). -/
theorem exec_ldVxK_none {s : State} (x : Reg) (noKey : s.inp.key = none) :
    exec (.ldVxK x) s = .next (s.transfer s.pc) := by
  simp only [exec, execLdVxK, noKey]

/-- Settles O48: the wait is a transfer of the entered state to its PC, which is the fetch address. -/
theorem waitingStepRepeats : Obligations.WaitingStepRepeats := by
  intro s w x running fetched decoded noKey
  have next : step s = .next (s.enter.transfer s.enter.pc) :=
    (step_decoded running fetched decoded).trans (exec_ldVxK_none x noKey)
  have same : (s.enter.transfer s.enter.pc).nextFetch = s.nextFetch := State.enter_pc_toNat_of_fetch_ok fetched
  refine ⟨_, next, same, ?_, decay_toNat _ _, decay_toNat _ _, fun _ => rfl, rfl, rfl, rfl, rfl, rfl, running⟩
  rw [same]
  exact (State.fetch_congr rfl _).trans fetched

/-! The end of a run -/

/-- A later state of a run that only its timers' decay has changed, as O60 lists it. -/
structure OnlyDecayed (s t : State) : Prop where
  nextFetch : t.nextFetch = s.nextFetch
  v : t.v = s.v
  i : t.i = s.i
  stack : t.stack = s.stack
  sp : t.sp = s.sp
  mem : t.mem = s.mem
  fb : t.fb = s.fb
  switches : t.switches = s.switches
  dt : t.dt.toNat ≤ s.dt.toNat
  st : t.st.toNat ≤ s.st.toNat

theorem OnlyDecayed.refl (s : State) : OnlyDecayed s s :=
  ⟨rfl, rfl, rfl, rfl, rfl, rfl, rfl, rfl, Nat.le_refl _, Nat.le_refl _⟩

theorem OnlyDecayed.trans {s t u : State} (h : OnlyDecayed s t) (g : OnlyDecayed t u) : OnlyDecayed s u :=
  ⟨g.nextFetch.trans h.nextFetch, g.v.trans h.v, g.i.trans h.i, g.stack.trans h.stack, g.sp.trans h.sp,
    g.mem.trans h.mem, g.fb.trans h.fb, g.switches.trans h.switches, g.dt.trans h.dt, g.st.trans h.st⟩

theorem decay_le (t : Byte) (d : Nat) : (decay t d).toNat ≤ t.toNat := by
  rw [decay_toNat]
  omega

theorem zext16_toNat (nnn : Addr12) : (zext16 nnn).toNat = nnn.toNat := by
  have := nnn.isLt
  rw [zext16, BitVec.toNat_setWidth]
  omega

/-- The end is a property of the run status, the next fetch address and memory (R240). -/
theorem State.AtEnd.congr {s t : State} (h : s.AtEnd) (run : t.run = s.run) (nextFetch : t.nextFetch = s.nextFetch)
    (mem : t.mem = s.mem) : t.AtEnd := by
  obtain ⟨running, nnn, self, fetched⟩ := h
  refine ⟨run.trans running, nnn, self.trans nextFetch.symm, ?_⟩
  rw [nextFetch, State.fetch_congr mem, fetched]

/-- A step from the end jumps to where it was: it is again at the end, and only the tick has changed the state. -/
theorem State.AtEnd.step {s : State} (h : s.AtEnd) : ∃ t, step s = .next t ∧ t.AtEnd ∧ OnlyDecayed s t := by
  obtain ⟨running, nnn, self, fetched⟩ := h
  have next : Machine.step s = .next (s.enter.transfer (zext16 nnn)) :=
    step_decoded running fetched (decodeOfEncodedInstruction (.jp nnn))
  have same : (s.enter.transfer (zext16 nnn)).nextFetch = s.nextFetch := (zext16_toNat nnn).trans self
  exact ⟨_, next, State.AtEnd.congr ⟨running, nnn, self, fetched⟩ rfl same rfl,
    same, rfl, rfl, rfl, rfl, rfl, rfl, rfl, decay_le _ _, decay_le _ _⟩

theorem core_run_succ {s t : State} (k : Nat) (h : step s = .next t) :
    Sys2Proof.core.run (k + 1) s = Sys2Proof.core.run k t := by
  have h' : Sys2Proof.core.step s = .next t := h
  simp only [Host.Core.run, h']

/-- Any number of steps from the end completes there, by the one step k times. -/
theorem State.AtEnd.run {s : State} (h : s.AtEnd) (k : Nat) :
    ∃ t : State, Sys2Proof.core.run k s = .next t ∧ t.AtEnd ∧ OnlyDecayed s t := by
  induction k generalizing s with
  | zero => exact ⟨s, rfl, h, .refl s⟩
  | succ k ih =>
    obtain ⟨t, next, atEnd, decayed⟩ := h.step
    obtain ⟨u, rest, atEnd', decayed'⟩ := ih atEnd
    exact ⟨u, (core_run_succ k next).trans rest, atEnd', decayed.trans decayed'⟩

/-- Settles O60: `State.AtEnd` is kept by every step, and what one step leaves unchanged, any number does. -/
theorem selfJumpIsForEver : Obligations.SelfJumpIsForEver := by
  intro s h k
  obtain ⟨t, run, atEnd, d⟩ := h.run k
  exact ⟨t, run, atEnd, d.nextFetch, d.v, d.i, d.stack, d.sp, d.mem, d.fb, d.switches, d.dt, d.st⟩

end Sys2Proof.Machine
end

section
/-! Which instructions write which state (10_state.md), read off the frame of every instruction, and which the step
inputs reach (10_state.md section 10). -/

namespace Sys2Proof.Machine

/-! The parts that an instruction may change, read backwards -/

theorem index_mem_touches {i : Instr} (h : Part.index ∈ touches i) :
    (∃ nnn, i = .ldI nnn) ∨ (∃ x, i = .addI x) ∨ ∃ x, i = .ldF x := by
  cases i
  case ldI nnn => exact .inl ⟨nnn, rfl⟩
  case addI x => exact .inr (.inl ⟨x, rfl⟩)
  case ldF x => exact .inr (.inr ⟨x, rfl⟩)
  all_goals simp [touches, mayTransfer] at h

theorem screen_mem_touches {i : Instr} (h : Part.screen ∈ touches i) : i = .cls ∨ ∃ x y n, i = .drw x y n := by
  cases i
  case cls => exact .inl rfl
  case drw x y n => exact .inr ⟨x, y, n, rfl⟩
  all_goals simp [touches, mayTransfer] at h

theorem delay_mem_touches {i : Instr} (h : Part.delay ∈ touches i) : ∃ x, i = .ldDTVx x := by
  cases i
  case ldDTVx x => exact ⟨x, rfl⟩
  all_goals simp [touches, mayTransfer] at h

theorem sound_mem_touches {i : Instr} (h : Part.sound ∈ touches i) : ∃ x, i = .ldSTVx x := by
  cases i
  case ldSTVx x => exact ⟨x, rfl⟩
  all_goals simp [touches, mayTransfer] at h

/-- The bytes that an instruction may change, read backwards. -/
theorem of_stores {i : Instr} {s : State} {a : Nat} (h : stores s i a) :
    (∃ x, i = .ldB x ∧ cellsFrom s.i.toNat 3 a) ∨
      ∃ x, i = .storeRegs x ∧ cellsFrom s.i.toNat (x.val + 1) a := by
  cases i
  case ldB x => exact .inl ⟨x, rfl, h⟩
  case storeRegs x => exact .inr ⟨x, rfl, h⟩
  all_goals exact h.elim

/-- Settles O20: the frame of an instruction that does not touch I keeps it. -/
theorem onlyThreeInstructionsWriteI : Obligations.OnlyThreeInstructionsWriteI := by
  intro i s t h changed
  exact index_mem_touches (not_imp_comm.1 (exec_frame i s t h).index changed)

/-- Settles O21: the stack changes by a push or a pop alone. -/
theorem onlyCallAndRetUseTheStack : Obligations.OnlyCallAndRetUseTheStack := by
  intro i s t h changed
  rcases exec_next_stack h with ⟨stack, sp⟩ | ⟨nnn, k, call, -⟩ | ⟨k, ret, -⟩
  · exact absurd changed (by simp [stack, sp])
  · exact .inl ⟨nnn, call⟩
  · exact .inr ret

/-- Settles O22: the frame of an instruction that does not touch the screen keeps it. -/
theorem onlyClearAndDrawChangeTheScreen : Obligations.OnlyClearAndDrawChangeTheScreen := by
  intro i s t h changed
  exact screen_mem_touches (not_imp_comm.1 (exec_frame i s t h).screen changed)

/-- Settles O23: the frame of an instruction that does not touch a timer keeps it. -/
theorem onlyTimerWritesChangeTimers : Obligations.OnlyTimerWritesChangeTimers := by
  intro i s t h
  have frame := exec_frame i s t h
  exact ⟨fun changed => delay_mem_touches (not_imp_comm.1 frame.delay changed),
    fun changed => sound_mem_touches (not_imp_comm.1 frame.sound changed)⟩

/-- A raise leaves the same bytes changed as the instruction's stores at most (R204). -/
theorem Raises.memRead {s t : State} {i : Instr} {k : FaultKind} (h : Raises s i k t) {a : Nat}
    (untouched : ¬ stores s i a) : t.memRead a = s.memRead a := by
  have taken {m n : Nat} (bs : List Byte) (hm : m ≤ n) (outside : ¬ cellsFrom s.i.toNat n a) :
      (s.setMem (s.mem.writeList s.i.toNat (bs.take m))).memRead a = s.memRead a := by
    refine (Frame.writeList [] [] s s.i.toNat (bs.take m)).memory a fun ⟨low, high⟩ => outside ⟨low, ?_⟩
    rw [List.length_take] at high
    omega
  cases h with
  | overflow | underflow | draw => rfl
  | load x k t hk inside out regs => exact State.memRead_congr (by rw [regs]) a
  | digits x k hk inside out => exact taken _ hk.le untouched
  | store x k hk inside out => exact taken _ (Nat.le_succ_of_le hk) untouched

/-- Settles O24: whether it completes or raises, an instruction changes no byte but those it stores to. -/
theorem onlyTwoInstructionsWriteMemory : Obligations.OnlyTwoInstructionsWriteMemory := by
  intro i s t h a changed
  refine of_stores (not_imp_comm.1 (fun untouched => ?_) changed)
  rcases h with next | ⟨r, raised⟩
  · exact (exec_frame i s t next).memory a untouched
  · obtain ⟨k, u, raises, ⟨⟩⟩ := exec_fault raised
    exact raises.memRead untouched

/-- Settles O25: an instruction leaves PC and the flag alone, or is a transfer that sets the flag. -/
theorem onlyTransfersChangeControl : Obligations.OnlyTransfersChangeControl := by
  intro i s t h changed
  rcases exec_next_control h with ⟨pc, flag⟩ | ⟨transfer, flag, -⟩
  · exact absurd changed (by simp [pc, flag])
  · exact ⟨transfer, flag⟩

/-- Settles O26: the frame of an instruction keeps every register outside its `writes` column. -/
theorem onlyDestinationsAreWritten : Obligations.OnlyDestinationsAreWritten := by
  intro i s t h r changed
  exact not_imp_comm.1 ((exec_frame i s t h).regs r) changed

/-! The step inputs in phase 4 -/

theorem memReads_withInput (s : State) (e : StepInput) (a n : Nat) :
    State.memReads { s with inp := e } a n = s.memReads a n := by
  induction n generalizing a with
  | zero => rfl
  | succ n ih =>
    simp only [State.memReads, ih]
    rfl

theorem memWrites_withInput (e : StepInput) (a : Nat) (bs : List Byte) (s : State) :
    memWrites a bs { s with inp := e } = withInput e (memWrites a bs s) := by
  induction bs generalizing a s with
  | nil => rfl
  | cons b bs ih =>
    by_cases inside : a < Config.memSize
    · simp only [memWrites, State.memWrite_lt _ inside]
      exact ih (a + 1) (s.setMem (s.mem.write a b))
    · simp only [memWrites, State.memWrite_ge _ (Nat.not_lt.1 inside)]
      rfl

theorem loadsV_withInput (e : StepInput) (a : Nat) (rs : List Reg) (s : State) :
    loadsV a rs { s with inp := e } = withInput e (loadsV a rs s) := by
  induction rs generalizing a s with
  | nil => rfl
  | cons r rs ih =>
    by_cases inside : a < Config.memSize
    · simp only [loadsV, State.memRead_lt _ inside]
      exact ih (a + 1) (s.setV r (s.mem.read a))
    · simp only [loadsV, State.memRead_ge _ (Nat.not_lt.1 inside)]
      rfl

theorem skipIf_withInput (s : State) (e : StepInput) (b : Bool) :
    State.skipIf { s with inp := e } b = { s.skipIf b with inp := e } := by
  cases b <;> rfl

/-- Settles O27: each instruction commutes with a change of the inputs, but for what it samples. -/
theorem inputsReachOnlyTheirInstructions : Obligations.InputsReachOnlyTheirInstructions := by
  intro i s e key random
  cases i
  case ret =>
    rcases s with ⟨_, _, _, _, _, _ | top, _⟩ <;> rfl
  case call nnn =>
    rcases hs : s.nextSlot with _ | k
    all_goals
      have hs' : State.nextSlot { s with inp := e } = _ := hs
      simp only [exec, execCall, State.push, hs, hs']
      rfl
  case drw x y n =>
    have rows : State.memReads { s with inp := e } (State.ea { s with inp := e } 0) n.toNat = _ :=
      memReads_withInput s e (s.ea 0) n.toNat
    simp only [exec, execDrw, rows]
    cases s.memReads (s.ea 0) n.toNat <;> rfl
  case seImm | sneImm | seReg | sneReg => exact congrArg _ (skipIf_withInput s e _)
  case skp x | sknp x =>
    have same : State.keyEquals { s with inp := e } x = s.keyEquals x := by
      simp only [State.keyEquals, key rfl]
      rfl
    simp only [exec, execSkp, execSknp, same, skipIf_withInput]
    rfl
  case ldVxK x =>
    simp only [exec, execLdVxK, key rfl]
    cases s.inp.key <;> rfl
  case rnd x kk =>
    simp only [exec, execRnd, random rfl]
    rfl
  case shl x y =>
    simp only [exec, execShl, State.setResultAndShlFlag]
    cases s.switches.shlFlagXor <;> rfl
  case ldB x => exact memWrites_withInput e _ _ s
  case storeRegs x => exact memWrites_withInput e _ _ s
  case loadRegs x => exact loadsV_withInput e _ _ s
  all_goals rfl

end Sys2Proof.Machine
end

section
/-! Control transfer of 40_control.md sections 2 and 3 and the keys and timers of 43_keys_timers.md against their
statements. -/

namespace Sys2Proof.Machine

/-! SP as a number (10_state.md R27) -/

theorem State.spValue_eq_val {s : State} {k : Fin 16} : s.spValue = k.val ↔ s.sp = some k := by
  rcases hs : s.sp with _ | top
  · simp only [spValue, hs, reduceCtorEq]
  · simp only [spValue, hs, Option.some.injEq, Fin.ext_iff]
    omega

theorem State.spValue_eq_neg_one {s : State} : s.spValue = -1 ↔ s.sp = none := by
  rcases hs : s.sp with _ | top
  · simp only [spValue, hs]
  · simp only [spValue, hs, reduceCtorEq]

theorem State.sp_eq_of_spValue_eq {s t : State} (h : s.spValue = t.spValue) : s.sp = t.sp := by
  rcases ht : t.sp with _ | top
  · exact spValue_eq_neg_one.1 (h.trans (spValue_eq_neg_one.2 ht))
  · exact spValue_eq_val.1 (h.trans (spValue_eq_val.2 ht))

theorem State.dropTop_spValue (s : State) (k : Fin 16) : (s.dropTop k).spValue = k.val - 1 := by
  by_cases zero : k = 0
  · rw [spValue_eq_neg_one.2 (by simp [zero]), zero]
    rfl
  · have nonzero : k.val ≠ 0 := fun e => zero (Fin.ext e)
    rw [spValue_eq_val.2 (show (s.dropTop k).sp = some (k - 1) by simp [zero]), Fin.val_sub_one_of_ne_zero zero]
    omega

/-! CALL and RET -/

/-- CALL with a free slot (R106). -/
theorem exec_call_next {s : State} {k : Fin 16} (nnn : Addr12) (free : (k.val : Int) = s.spValue + 1) :
    exec (.call nnn) s = .next ((s.pushAt k (s.pc + 2)).transfer (zext16 nnn)) := by
  rcases execCall_cases nnn s with ⟨full, -⟩ | ⟨j, -, hj, next⟩
  · have := State.spValue_of_full full
    omega
  · obtain rfl : j = k := Fin.ext (by omega)
    exact next

/-- CALL with SP = 15 (R205). -/
theorem exec_call_overflow {s : State} (nnn : Addr12) (full : s.spValue = 15) :
    exec (.call nnn) s = raise .stackOverflow s := by
  rcases execCall_cases nnn s with ⟨-, raised⟩ | ⟨k, -, hk, -⟩
  · exact raised
  · omega

/-- RET with a saved frame (R104). -/
theorem exec_ret_next {s : State} {k : Fin 16} (top : s.sp = some k) :
    exec .ret s = .next ((s.dropTop k).transfer s.stack[k]) := by
  rcases execRet_cases s with ⟨empty, -⟩ | ⟨j, hj, next⟩
  · cases empty.symm.trans top
  · cases hj.symm.trans top
    exact next

/-- RET with SP = -1 (R205). -/
theorem exec_ret_underflow {s : State} (empty : s.sp = none) : exec .ret s = raise .stackUnderflow s := by
  rcases execRet_cases s with ⟨-, raised⟩ | ⟨k, top, -⟩
  · exact raised
  · cases empty.symm.trans top

/-- Settles O30: the free slot is the one above SP, and only it, SP and control change. -/
theorem callPushesTheReturnAddress : Obligations.CallPushesTheReturnAddress := by
  intro nnn s
  refine ⟨fun k free => ?next, fun full => exec_call_overflow nnn full⟩
  refine ⟨_, exec_call_next nnn free, (State.spValue_eq_val.2 rfl).trans free, ?_, fun j other => ?_,
    zext16_toNat nnn, rfl, ?_⟩
  · simp
  · have other' : k.val ≠ j.val := fun e => other (Fin.ext e.symm)
    simp [Vector.getElem_set_ne, other']
  · exact (Frame.pushAt [] (by simp) noCells s k _).trans (Frame.transfer [] (by simp) noCells _ _)

/-- Settles O31: the top slot is the one at SP, and only SP and control change. -/
theorem retPopsTheReturnAddress : Obligations.RetPopsTheReturnAddress := by
  intro s
  refine ⟨fun k top => ?next, fun empty => exec_ret_underflow (State.spValue_eq_neg_one.1 empty)⟩
  have lowered : (s.dropTop k).spValue = s.spValue - 1 := by rw [s.dropTop_spValue, top]
  refine ⟨_, exec_ret_next (State.spValue_eq_val.1 top.symm), lowered, rfl, rfl, rfl, ?_⟩
  exact (Frame.dropTop [] (by simp) noCells s k).trans (Frame.transfer [] (by simp) noCells _ _)

/-- Settles O32: RET reads the slot CALL has written, and SP is again one below it. -/
theorem callThenRetReturns : Obligations.CallThenRetReturns := by
  intro nnn s t u pc call stack sp
  rcases execCall_cases nnn s with ⟨-, e⟩ | ⟨k, -, hk, e⟩ <;> cases e.symm.trans call
  have top : u.sp = some k := sp
  refine ⟨_, exec_ret_next top, ?_, State.sp_eq_of_spValue_eq ?_⟩
  · have slot : u.stack[k] = s.pc + 2 := by rw [stack]; simp
    rw [State.transfer_nextFetch, slot]
    bv_omega
  · have popped : ((u.dropTop k).transfer u.stack[k]).spValue = k.val - 1 := u.dropTop_spValue k
    omega

/-! Jumps -/

/-- A fetch of a word that does not lie in the memory entirely raises the lower failing address (R202). -/
theorem step_fetch_beyond {s : State} (running : s.run = .running) (beyond : 4095 ≤ s.nextFetch) :
    ∃ r t, step s = .fault (.raised r t) ∧ r.kind = .outOfRangeMem (max 4096 s.nextFetch) := by
  obtain ⟨outside, last⟩ := fetchOutOfRangeFaults s running
  rcases beyond.eq_or_lt with h | h
  · obtain ⟨r, t, raised, kind, -⟩ := last h.symm
    exact ⟨r, t, raised, kind.trans (by rw [← h]; rfl)⟩
  · obtain ⟨r, t, raised, kind, -⟩ := outside h
    exact ⟨r, t, raised, kind.trans (by rw [Nat.max_eq_right h])⟩

/-- Settles O28: the jump is one transfer, and 0xFFF is the last address of the memory. -/
theorem jumpGoesToItsTarget : Obligations.JumpGoesToItsTarget := by
  intro nnn s
  have target : (s.transfer (zext16 nnn)).nextFetch = nnn.toNat := zext16_toNat nnn
  refine ⟨_, rfl, target, rfl, target, Frame.transfer [] (by simp) noCells s _, fun last running => ?_⟩
  have at4095 : (s.transfer (zext16 nnn)).nextFetch = 4095 := target.trans (by rw [last]; rfl)
  obtain ⟨r, u, raised, kind⟩ := step_fetch_beyond (s := s.transfer (zext16 nnn)) running at4095.ge
  exact ⟨r, u, raised, kind.trans (by rw [at4095]; rfl)⟩

/-- Settles O29: the sum fits 16 bits, so the transfer's target is the sum itself. -/
theorem indexedJumpAddsV0 : Obligations.IndexedJumpAddsV0 := by
  intro nnn s
  have target : (BitVec.ofNat 16 (nnn.toNat + (s.getV 0).toNat)).toNat = nnn.toNat + (s.getV 0).toNat := by
    have := nnn.isLt
    have := (s.getV 0).isLt
    rw [BitVec.toNat_ofNat]
    omega
  refine ⟨_, rfl, target, rfl, Frame.transfer [] (by simp) noCells s _, fun beyond running => ?_⟩
  have next : (s.transfer (BitVec.ofNat 16 (nnn.toNat + (s.getV 0).toNat))).nextFetch = _ := target
  rw [← next] at beyond ⊢
  exact step_fetch_beyond running beyond

/-! Skips -/

/-- A skip on a test skips exactly when what the test decides holds (R112). -/
theorem skipsWhen_skipIf (s : State) {taken : Bool} {P : Prop} (decides : taken = true ↔ P) :
    SkipsWhen (.next (s.skipIf taken)) s P := by
  refine ⟨_, rfl, fun holds => ?_, fun fails => ?_, Frame.skipIf s taken⟩
  · rw [decides.2 holds]
    exact ⟨rfl, rfl⟩
  · rw [Bool.eq_false_iff.2 (mt decides.1 fails)]
    exact ⟨rfl, rfl⟩

/-- Settles O33: each of the four tests decides its comparison. -/
theorem compareSkips : Obligations.CompareSkips := by
  intro x y kk s
  exact ⟨skipsWhen_skipIf s beq_iff_eq, skipsWhen_skipIf s bne_iff_ne, skipsWhen_skipIf s beq_iff_eq,
    skipsWhen_skipIf s bne_iff_ne⟩

/-- The key test as R163 words it. -/
theorem State.keyEquals_iff (s : State) (x : Reg) :
    s.keyEquals x = true ↔ ∃ k, s.inp.key = some k ∧ (s.getV x).toNat = k.val := by
  rcases hk : s.inp.key with _ | k <;> simp [keyEquals, hk]

/-- Settles O34: SKP skips on the key test, SKNP on its negation. -/
theorem keySkips : Obligations.KeySkips := by
  intro x s
  refine ⟨skipsWhen_skipIf s (s.keyEquals_iff x), skipsWhen_skipIf s ?_⟩
  rw [Bool.not_eq_true', ← Bool.not_eq_true, s.keyEquals_iff]
  rcases s.inp.key with _ | k <;> simp

/-! The key wait and the timers -/

/-- With a key LD Vx, K is a register write (R164). -/
theorem exec_ldVxK_some {s : State} {k : Fin 16} (x : Reg) (key : s.inp.key = some k) :
    exec (.ldVxK x) s = .next (s.setV x (BitVec.ofNat 8 k.val)) := by
  simp only [exec, execLdVxK, key]

/-- Settles O47: without a key a transfer to PC itself, with one a register write. -/
theorem keyWait : Obligations.KeyWait := by
  intro x s
  refine ⟨fun noKey => ?wait, fun k key => ?stored⟩
  case wait =>
    exact ⟨_, exec_ldVxK_none x noKey, rfl, rfl, rfl, Frame.transfer [] (by simp) noCells s _⟩
  case stored =>
    refine ⟨_, exec_ldVxK_some x key, ?_, fun clear => ?_, Frame.setV (by simp) [] noCells s _⟩
    · rw [State.getV_setV_same, BitVec.toNat_ofNat]
      omega
    · simp [State.nextFetch, clear]

/-- Settles O49: each access is one update. -/
theorem timerAccess : Obligations.TimerAccess := by
  intro x s
  exact ⟨⟨_, rfl, s.getV_setV_same x s.dt, Frame.setV (by simp) [] noCells s _⟩,
    ⟨_, rfl, rfl, Frame.setDT [] (by simp) noCells s _⟩, ⟨_, rfl, rfl, Frame.setST [] (by simp) noCells s _⟩⟩

end Sys2Proof.Machine
end

section
/-! The register file and the ALU of 41_alu.md, and I of 44_index_memory.md section 1, against their statements. -/

namespace Sys2Proof.Machine

/-! A result with its flag (R133) -/

/-- VF is the flag also with x = F, because it is written last. -/
theorem State.setResultAndFlag_flag (s : State) (x : Reg) (b : Byte) (f : Bool) :
    (s.setResultAndFlag x b f).getV 15 = flagByte f := by
  rw [setResultAndFlag_getV, if_pos (show (15 : Reg) = VF from rfl)]

theorem State.setResultAndFlag_result (s : State) {x : Reg} (notF : x ≠ 15) (b : Byte) (f : Bool) :
    (s.setResultAndFlag x b f).getV x = b := by
  rw [setResultAndFlag_getV, if_neg (show x ≠ VF from notF), if_pos rfl]

/-! The flags as numbers (R126 to R130) -/

theorem flagByte_decide_toNat (P : Prop) [Decidable P] : (flagByte (decide P)).toNat = if P then 1 else 0 := by
  simp only [flagByte_toNat, decide_eq_true_eq]

theorem flagByte_lowBit_toNat (a : Byte) : (flagByte (lowBit a)).toNat = a.toNat % 2 := by
  rw [flagByte_toNat, lowBit, ← BitVec.testBit_toNat, Nat.testBit_zero]
  rcases Nat.mod_two_eq_zero_or_one a.toNat with h | h <;> simp [h]

theorem flagByte_highBit_toNat (a : Byte) : (flagByte (highBit a)).toNat = a.toNat / 128 := by
  have bound := a.isLt
  have digit : a.toNat / 128 = 0 ∨ a.toNat / 128 = 1 := by omega
  rw [flagByte_toNat, highBit, ← BitVec.testBit_toNat, Nat.testBit_eq_decide_div_mod_eq,
    show 2 ^ 7 = 128 from rfl]
  rcases digit with h | h <;> simp [h]

/-! The ALU operations as numbers -/

theorem byte_sub_toNat (a b : Byte) : ((a - b).toNat : Int) = ((a.toNat : Int) - b.toNat) % 256 := by
  have := a.isLt
  have := b.isLt
  rw [BitVec.toNat_sub]
  omega

theorem byte_shiftRight_one_toNat (a : Byte) : (a >>> 1).toNat = a.toNat / 2 := by
  rw [BitVec.toNat_ushiftRight, Nat.shiftRight_eq_div_pow, pow_one]

theorem byte_shiftLeft_one_toNat (a : Byte) : (a <<< 1).toNat = a.toNat * 2 % 256 := by
  rw [BitVec.toNat_shiftLeft, Nat.shiftLeft_eq, pow_one]

/-- A bit exclusive-ored into an even byte is added to it. -/
theorem byte_shiftLeft_one_xor_toNat (a : Byte) (f : Bool) :
    ((a <<< 1) ^^^ flagByte f).toNat = a.toNat * 2 % 256 + (flagByte f).toNat := by
  have even : Even (a.toNat * 2 % 256) := Nat.even_iff.2 (by omega)
  rw [BitVec.toNat_xor, byte_shiftLeft_one_toNat]
  cases f
  · exact Nat.xor_zero _
  · exact Nat.xor_one_of_even even

/-! Loads, copies and logic -/

/-- Settles O35: each is one register write, and a byte sum wraps at 256. -/
theorem loadAndAddImmediate : Obligations.LoadAndAddImmediate := by
  intro x kk s
  refine ⟨⟨_, rfl, s.getV_setV_same x kk, Frame.setV (by simp) [] noCells s kk⟩,
    _, rfl, ?_, Frame.setV (by simp) [] noCells s _⟩
  rw [State.getV_setV_same, BitVec.toNat_add]

/-- Settles O36: each is one write of Vx, whose bits are those of the operation. -/
theorem copyAndLogicLeaveTheFlag : Obligations.CopyAndLogicLeaveTheFlag := by
  intro x y s
  have frame (b : Byte) : Frame [x] [] noCells s (s.setV x b) := Frame.setV (by simp) [] noCells s b
  refine ⟨⟨_, rfl, s.getV_setV_same x _, frame _⟩, ⟨_, rfl, frame _, fun b _ => ?_⟩,
    ⟨_, rfl, frame _, fun b _ => ?_⟩, _, rfl, frame _, fun b _ => ?_⟩
  · rw [State.getV_setV_same, BitVec.getLsbD_or]
  · rw [State.getV_setV_same, BitVec.getLsbD_and]
  · rw [State.getV_setV_same, BitVec.getLsbD_xor]

/-- Settles O41: the one write of Vx is the conjunction of the byte and the mask. -/
theorem randomByteIsMasked : Obligations.RandomByteIsMasked := by
  intro x kk s
  refine ⟨_, rfl, Frame.setV (by simp) [] noCells s _, fun b _ => ?bits, fun zero => ?zero, fun ones => ?ones⟩
  case bits => rw [State.getV_setV_same, BitVec.getLsbD_and]
  case zero => rw [State.getV_setV_same, zero]; exact BitVec.and_zero
  case ones => rw [State.getV_setV_same, ones]; exact BitVec.and_allOnes

/-! Sums, differences and shifts with their flag -/

/-- Settles O37: the carry is the sum's overflow of a byte. -/
theorem addWritesTheCarry : Obligations.AddWritesTheCarry := by
  intro x y s
  refine ⟨_, rfl, fun notF => ?_, ?_, Frame.setResultAndFlag [] noCells s x _ _⟩
  · rw [State.setResultAndFlag_result s notF, BitVec.toNat_add]
  · rw [State.setResultAndFlag_flag]
    exact flagByte_decide_toNat _

/-- Settles O38: the two differ in the order of the operands alone. -/
theorem subtractionsWriteNoBorrow : Obligations.SubtractionsWriteNoBorrow := by
  intro x y s
  refine ⟨⟨_, rfl, fun notF => ?_, ?_, Frame.setResultAndFlag [] noCells s x _ _⟩,
    _, rfl, fun notF => ?_, ?_, Frame.setResultAndFlag [] noCells s x _ _⟩
  · rw [State.setResultAndFlag_result s notF, byte_sub_toNat]
  · rw [State.setResultAndFlag_flag]
    exact flagByte_decide_toNat _
  · rw [State.setResultAndFlag_result s notF, byte_sub_toNat]
  · rw [State.setResultAndFlag_flag]
    exact flagByte_decide_toNat _

/-- Settles O39: the source is the one the switch selects, its low bit the flag. -/
theorem shiftRightHalves : Obligations.ShiftRightHalves := by
  rintro x y s _ rfl
  refine ⟨_, rfl, fun notF => ?_, ?_, Frame.setResultAndFlag [] noCells s x _ _⟩
  · rw [State.setResultAndFlag_result s notF]
    exact byte_shiftRight_one_toNat _
  · rw [State.setResultAndFlag_flag]
    exact flagByte_lowBit_toNat _

/-- SHL's result stands under either form of the flag, which goes to VF (R130). -/
theorem State.setResultAndShlFlag_result (s : State) {x : Reg} (notF : x ≠ 15) (b : Byte) (f : Bool) :
    (s.setResultAndShlFlag x b f).getV x = b := by
  unfold setResultAndShlFlag
  split
  · rw [getV_setV_other _ _ (show VF ≠ x from notF.symm), getV_setV_same]
  · exact s.setResultAndFlag_result notF b f

theorem State.setResultAndShlFlag_assign {s : State} (assign : s.switches.shlFlagXor = false) (x : Reg) (b : Byte)
    (f : Bool) : (s.setResultAndShlFlag x b f).getV 15 = flagByte f := by
  rw [setResultAndShlFlag, assign]
  exact s.setResultAndFlag_flag x b f

theorem State.setResultAndShlFlag_xor {s : State} (xor : s.switches.shlFlagXor = true) (x : Reg) (b : Byte)
    (f : Bool) : (s.setResultAndShlFlag x b f).getV 15 = (s.setV x b).getV 15 ^^^ flagByte f := by
  rw [setResultAndShlFlag, xor]
  exact getV_setV_same _ _ _

/-- Settles O40: the result is twice the source, and the flag, in either form, is the bit that leaves it. -/
theorem shiftLeftDoubles : Obligations.ShiftLeftDoubles := by
  rintro x y s _ rfl
  refine ⟨_, rfl, fun notF => ?result, fun assign => ?assign, fun xor notF => ?xor, fun xor isF => ?xorF,
    Frame.setResultAndShlFlag [] noCells s x _ _⟩
  case result =>
    rw [State.setResultAndShlFlag_result s notF]
    exact byte_shiftLeft_one_toNat _
  case assign =>
    rw [State.setResultAndShlFlag_assign assign]
    exact flagByte_highBit_toNat _
  case xor =>
    rw [State.setResultAndShlFlag_xor xor, State.getV_setV_other s _ notF, ← flagByte_highBit_toNat,
      BitVec.ofNat_toNat, BitVec.setWidth_eq]
    rfl
  case xorF =>
    rw [State.setResultAndShlFlag_xor xor, isF, State.getV_setV_same, byte_shiftLeft_one_xor_toNat,
      flagByte_highBit_toNat]
    rfl

/-! The index register -/

/-- Settles O51: each is one write of I, and a 16-bit sum wraps at 65536. -/
theorem indexLoadAndAdd : Obligations.IndexLoadAndAdd := by
  refine ⟨fun nnn s => ⟨_, rfl, zext16_toNat nnn, Frame.setI [] (by simp) noCells s _⟩,
    fun x s => ⟨_, rfl, ?_, Frame.setI [] (by simp) noCells s _⟩⟩
  have := (s.getV x).isLt
  simp only [State.setI_i, BitVec.toNat_add, BitVec.toNat_setWidth]
  omega

end Sys2Proof.Machine
end

section
/-! The blit of 42_display.md (R142 to R144) as a visit of the sprite's pixels, each once, and the draw and the pixel
accessors against their statements. -/

namespace Sys2Proof.Machine

/-! The blit as a list of visits -/

/-- The pixels of a row's set bits, in the order of the blit (R142). -/
def rowPoints (row : Byte) (ox oy r : Nat) : List (Fin 64 × Fin 32) :=
  ((List.range 8).filter fun col => row.getLsbD (7 - col)).map fun col =>
    (Fin.ofNat 64 (ox + col), Fin.ofNat 32 (oy + r))

/-- The pixels of a sprite's set bits, from row `r` on. -/
def spritePoints (ox oy : Nat) : Nat → List Byte → List (Fin 64 × Fin 32)
  | _, [] => []
  | r, row :: rows => rowPoints row ox oy r ++ spritePoints ox oy (r + 1) rows

/-- The visits of a list of pixels, one after another. -/
def visit (points : List (Fin 64 × Fin 32)) (b : Blit) : Blit := points.foldl (fun b p => blitPixel p.1 p.2 b) b

theorem visit_cons (p : Fin 64 × Fin 32) (points : List (Fin 64 × Fin 32)) (b : Blit) :
    visit (p :: points) b = visit points (blitPixel p.1 p.2 b) := rfl

theorem blitRow_eq_visit (row : Byte) (ox oy r : Nat) (b : Blit) :
    blitRow row ox oy r b = visit (rowPoints row ox oy r) b := by
  rw [visit, rowPoints, List.foldl_map, List.foldl_filter]
  rfl

theorem blitRows_eq_visit (ox oy r : Nat) (rows : List Byte) (b : Blit) :
    blitRows ox oy r rows b = visit (spritePoints ox oy r rows) b := by
  induction rows generalizing r b with
  | nil => rfl
  | cons row rows ih =>
    rw [blitRows, ih, blitRow_eq_visit, spritePoints, visit, visit, visit, List.foldl_append]

/-- Visits of different pixels toggle each of them, and collide exactly when one of them was on. -/
theorem visit_spec {points : List (Fin 64 × Fin 32)} (once : points.Nodup) (b : Blit) :
    (∀ x y, pixel (visit points b).fb x y = (pixel b.fb x y ^^ decide ((x, y) ∈ points))) ∧
    (visit points b).collided = (b.collided || points.any fun p => pixel b.fb p.1 p.2) := by
  induction points generalizing b with
  | nil => simp [visit]
  | cons p points ih =>
    obtain ⟨new, once⟩ := List.nodup_cons.1 once
    obtain ⟨toggled, collided⟩ := blitPixel_spec p.1 p.2 b
    obtain ⟨pixels, collisions⟩ := ih once (blitPixel p.1 p.2 b)
    rw [visit_cons]
    constructor
    · intro x y
      rw [pixels, toggled]
      by_cases here : x = p.1 ∧ y = p.2
      · simp [here, new]
      · have notP : (x, y) ≠ p := fun e => here ⟨congrArg Prod.fst e, congrArg Prod.snd e⟩
        simp [here, notP]
    · have later : ∀ q ∈ points, pixel (blitPixel p.1 p.2 b).fb q.1 q.2 = pixel b.fb q.1 q.2 := fun q hq => by
        rw [toggled, if_neg]
        exact fun ⟨hx, hy⟩ => new (Prod.ext hx hy ▸ hq)
      have rest : (points.any fun q => pixel (blitPixel p.1 p.2 b).fb q.1 q.2) =
          points.any fun q => pixel b.fb q.1 q.2 := by
        rw [Bool.eq_iff_iff, List.any_eq_true, List.any_eq_true]
        exact exists_congr fun q => and_congr_right fun hq => by rw [later q hq]
      rw [collisions, collided, rest, List.any_cons, Bool.or_assoc]

/-! Each pixel of a sprite is visited once -/

theorem mem_rowPoints {row : Byte} {ox oy r : Nat} {x : Fin 64} {y : Fin 32} :
    (x, y) ∈ rowPoints row ox oy r ↔
      ∃ col < 8, row.getLsbD (7 - col) = true ∧ x.val = (ox + col) % 64 ∧ y.val = (oy + r) % 32 := by
  simp only [rowPoints, List.mem_map, List.mem_filter, List.mem_range, Prod.mk.injEq, Fin.ext_iff, Fin.val_ofNat,
    and_assoc, eq_comm (b := x.val), eq_comm (b := y.val)]

theorem mem_spritePoints {ox oy r : Nat} {rows : List Byte} {x : Fin 64} {y : Fin 32} :
    (x, y) ∈ spritePoints ox oy r rows ↔
      ∃ k, ∃ h : k < rows.length, ∃ col < 8, rows[k].getLsbD (7 - col) = true ∧
        x.val = (ox + col) % 64 ∧ y.val = (oy + (r + k)) % 32 := by
  induction rows generalizing r with
  | nil => simp [spritePoints]
  | cons row rows ih =>
    rw [spritePoints, List.mem_append, mem_rowPoints, ih]
    constructor
    · rintro (first | ⟨k, hk, rest⟩)
      · exact ⟨0, Nat.succ_pos _, first⟩
      · exact ⟨k + 1, Nat.succ_lt_succ hk, by simpa [Nat.add_assoc, Nat.add_comm 1] using rest⟩
    · rintro ⟨_ | k, hk, point⟩
      · exact .inl point
      · exact .inr ⟨k, Nat.lt_of_succ_lt_succ hk, by simpa [Nat.add_assoc, Nat.add_comm 1] using point⟩

theorem rowPoints_nodup (row : Byte) (ox oy r : Nat) : (rowPoints row ox oy r).Nodup := by
  refine List.Nodup.map_on (fun i hi j hj same => ?_) (List.nodup_range.filter _)
  have hi := List.mem_range.1 (List.mem_of_mem_filter hi)
  have hj := List.mem_range.1 (List.mem_of_mem_filter hj)
  have same : (ox + i) % 64 = (ox + j) % 64 := congrArg (fun p => p.1.val) same
  omega

/-- At most 32 rows wrap onto different rows of the screen. -/
theorem spritePoints_nodup (ox oy r : Nat) {rows : List Byte} (fits : rows.length ≤ 32) :
    (spritePoints ox oy r rows).Nodup := by
  induction rows generalizing r with
  | nil => exact List.nodup_nil
  | cons row rows ih =>
    rw [List.length_cons] at fits
    refine List.Nodup.append (rowPoints_nodup row ox oy r) (ih (r + 1) (by omega)) ?_
    rintro ⟨x, y⟩ first rest
    obtain ⟨_, -, -, -, yFirst⟩ := mem_rowPoints.1 first
    obtain ⟨k, hk, _, -, -, -, yRest⟩ := mem_spritePoints.1 rest
    omega

/-- The blit exclusive-ors the sprite's pixels onto the screen and collides exactly when one of them was on (R142). -/
theorem blitSprite_spec {rows : List Byte} (fits : rows.length ≤ 32) (ox oy : Nat) (f : Framebuffer) :
    (∀ x y, pixel (blitSprite rows ox oy f).fb x y =
      (pixel f x y ^^ decide ((x, y) ∈ spritePoints ox oy 0 rows))) ∧
    (blitSprite rows ox oy f).collided = (spritePoints ox oy 0 rows).any fun p => pixel f p.1 p.2 := by
  obtain ⟨pixels, collisions⟩ := visit_spec (spritePoints_nodup ox oy 0 fits) ⟨f, false⟩
  rw [← blitRows_eq_visit] at pixels collisions
  exact ⟨pixels, collisions.trans (Bool.false_or _)⟩

/-! DRW -/

/-- The `n` sprite bytes at I (R146). -/
def spriteRows (s : State) (n : Nibble) : List Byte := (List.range n.toNat).map fun k => s.mem.read (s.i.toNat + k)

theorem spriteRows_length_le (s : State) (n : Nibble) : (spriteRows s n).length ≤ 32 := by
  have := n.isLt
  rw [spriteRows, List.length_map, List.length_range]
  omega

/-- The pixels that a DRW visits. -/
def drawPoints (s : State) (x y : Reg) (n : Nibble) : List (Fin 64 × Fin 32) :=
  spritePoints (s.getV x).toNat (s.getV y).toNat 0 (spriteRows s n)

/-- DRW completes with its pixels exclusive-ored onto the screen and VF the collision flag (R146). -/
structure Draws (x y : Reg) (n : Nibble) (s t : State) : Prop where
  frame : Frame [15] [.screen] noCells s t
  mem : t.mem = s.mem
  pixels : ∀ px py, pixel t.fb px py = (pixel s.fb px py ^^ decide ((px, py) ∈ drawPoints s x y n))
  flag : t.getV 15 = flagByte ((drawPoints s x y n).any fun p => pixel s.fb p.1 p.2)

/-- DRW completes when all its sprite bytes are in the memory (R146). -/
theorem exec_drw_next (x y : Reg) {n : Nibble} {s : State} (inside : ∀ k < n.toNat, s.i.toNat + k < Config.memSize) :
    ∃ t, exec (.drw x y n) s = .next t ∧ Draws x y n s t := by
  rcases execDrw_cases x y n s with ⟨-, b, rfl, next⟩ | ⟨k, hk, -, out, -⟩
  · obtain ⟨pixels, collided⟩ :=
      blitSprite_spec (spriteRows_length_le s n) (s.getV x).toNat (s.getV y).toNat s.fb
    have frame := Frame.setFb [15] (List.mem_singleton_self Part.screen) noCells s
    exact ⟨_, next, (frame _).trans (Frame.setV (r := VF) (by simp [VF]) _ noCells _ _), rfl, pixels,
      (State.getV_setV_same _ _ _).trans (congrArg flagByte collided)⟩
  · exact absurd (inside k hk) (Nat.not_lt.2 out)

/-- A DRW that completed had all its sprite bytes in the memory. -/
theorem of_exec_drw_next {x y : Reg} {n : Nibble} {s t : State} (h : exec (.drw x y n) s = .next t) :
    (∀ k < n.toNat, s.i.toNat + k < Config.memSize) ∧ Draws x y n s t := by
  rcases execDrw_cases x y n s with ⟨inside, -⟩ | ⟨k, -, -, -, raised⟩
  · obtain ⟨u, next, draws⟩ := exec_drw_next x y inside
    cases next.symm.trans h
    exact ⟨inside, draws⟩
  · cases raised.symm.trans h

/-- The visited pixels are those of the mask, whose rows are the bytes that the memory answers (R142 to R144). -/
theorem mem_drawPoints {x y : Reg} {n : Nibble} {s : State} {row : Nat → Byte}
    (rows : ∀ r < n.toNat, s.memRead (s.i.toNat + r) = .ok (row r)) {px : Fin 64} {py : Fin 32} :
    (px, py) ∈ drawPoints s x y n ↔ spriteMask row n.toNat (s.getV x).toNat (s.getV y).toNat px py := by
  have same : spriteRows s n = (List.range n.toNat).map row :=
    List.map_congr_left fun r hr => (State.memRead_ok (rows r (List.mem_range.1 hr))).2.symm
  simp only [drawPoints, same, mem_spritePoints, spriteMask, List.length_map, List.length_range, List.getElem_map,
    List.getElem_range, Nat.zero_add, exists_prop]

/-- Settles O43: the visited pixels are the mask's. -/
theorem drawTogglesTheWrappedSprite : Obligations.DrawTogglesTheWrappedSprite := by
  intro x y n s row rows
  obtain ⟨t, next, draws⟩ := exec_drw_next x y fun r hr => (State.memRead_ok (rows r hr)).1
  refine ⟨t, next, draws.frame, fun px py => ?pixels, fun ⟨px, py, on, masked⟩ => ?collides,
    fun apart => ?noCollision⟩
  case pixels =>
    rw [draws.pixels, ← mem_drawPoints rows]
    by_cases visited : (px, py) ∈ drawPoints s x y n <;> simp [visited]
  case collides =>
    have any : (drawPoints s x y n).any (fun p => pixel s.fb p.1 p.2) = true :=
      List.any_eq_true.2 ⟨(px, py), (mem_drawPoints rows).2 masked, on⟩
    rw [draws.flag, any]
    rfl
  case noCollision =>
    have any : (drawPoints s x y n).any (fun p => pixel s.fb p.1 p.2) = false :=
      List.any_eq_false.2 fun p hp on => apart p.1 p.2 on ((mem_drawPoints rows).1 hp)
    rw [draws.flag, any]
    rfl

/-- Settles O44: the second draw visits the same pixels, so it undoes the first one's toggles. -/
theorem drawTwiceRestoresTheScreen : Obligations.DrawTwiceRestoresTheScreen := by
  intro x y n s t first sameX sameY
  obtain ⟨inside, draws⟩ := of_exec_drw_next first
  have sameI : t.i = s.i := draws.frame.index (by simp)
  have samePoints : drawPoints t x y n = drawPoints s x y n := by
    simp only [drawPoints, spriteRows, sameX, sameY, sameI, draws.mem]
  obtain ⟨u, second, draws'⟩ := exec_drw_next x y (sameI ▸ inside)
  refine ⟨u, second, framebuffer_ext fun px py => ?restored,
    fun blank => ⟨?firstFlag, fun ⟨px, py, on⟩ => ?secondFlag⟩⟩
  case restored => rw [draws'.pixels, draws.pixels, samePoints, Bool.xor_assoc, Bool.xor_self, Bool.xor_false]
  case firstFlag =>
    rw [draws.flag, blank]
    simp [flagByte]
  case secondFlag =>
    have visited : (px, py) ∈ drawPoints t x y n := by
      rw [draws.pixels, blank, pixel_blankScreen, Bool.false_xor] at on
      rw [samePoints]
      exact of_decide_eq_true on
    rw [draws'.flag, List.any_eq_true.2 ⟨_, visited, on⟩]
    rfl

/-- Settles O45: every row is read before any pixel or VF changes, so the raise is in the state before. -/
theorem drawOutOfRangeChangesNothing : Obligations.DrawOutOfRangeChangesNothing := by
  intro x y n s r hr inside out
  have rows : s.memReads (s.ea 0) n.toNat = .error (.outOfRangeMem (s.i.toNat + r)) :=
    s.memReads_error s.i.toNat n.toNat r hr inside out
  simp only [exec, execDrw, rows]
  rfl

/-! The pixel accessors -/

/-- Coordinates in range are those of one pixel (R140). -/
theorem fbCoord_val (px : Fin 64) (py : Fin 32) : fbCoord px.val py.val = .ok (px, py) := by
  have := px.isLt
  have := py.isLt
  rw [fbCoord, if_pos (by omega)]
  simp

theorem fbCoord_out {x y : Int} (out : ¬(0 ≤ x ∧ x < 64 ∧ 0 ≤ y ∧ y < 32)) :
    fbCoord x y = .error (.outOfRangeFb x y) := by
  rw [fbCoord, if_neg out]

theorem State.fbGet_val (s : State) (px : Fin 64) (py : Fin 32) : s.fbGet px.val py.val = .ok (pixel s.fb px py) := by
  rw [fbGet, fbCoord_val]

theorem State.fbSet_val (s : State) (px : Fin 64) (py : Fin 32) (b : Bool) :
    s.fbSet px.val py.val b = .ok (s.setFb (setPixel s.fb px py b)) := by
  rw [fbSet, fbCoord_val]

/-- The pixel at coordinates in range. -/
theorem exists_pixel {x y : Int} (inside : 0 ≤ x ∧ x < 64 ∧ 0 ≤ y ∧ y < 32) :
    ∃ (px : Fin 64) (py : Fin 32), (px.val : Int) = x ∧ (py.val : Int) = y :=
  ⟨⟨x.toNat, by omega⟩, ⟨y.toNat, by omega⟩, by simp only; omega, by simp only; omega⟩

/-- A pixel that is set leaves every other pair of coordinates, also those out of range. -/
theorem State.fbGet_setPixel_other (s : State) (px : Fin 64) (py : Fin 32) (b : Bool) {x y : Int}
    (other : x ≠ px.val ∨ y ≠ py.val) : (s.setFb (setPixel s.fb px py b)).fbGet x y = s.fbGet x y := by
  by_cases inside : 0 ≤ x ∧ x < 64 ∧ 0 ≤ y ∧ y < 32
  · obtain ⟨qx, qy, rfl, rfl⟩ := exists_pixel inside
    have apart : ¬(qx = px ∧ qy = py) := by
      rintro ⟨rfl, rfl⟩
      simp at other
    rw [fbGet_val, fbGet_val, setFb_fb, pixel_setPixel, if_neg apart]
  · rw [fbGet, fbGet, fbCoord_out inside]

/-- Settles O46: in range the accessors are about one pixel; out of range both report the coordinates. -/
theorem pixelAccessors : Obligations.PixelAccessors := by
  intro s x y b
  refine ⟨fun x0 x64 y0 y32 => ?inside, fun out f hf => ?outside⟩
  case inside =>
    obtain ⟨px, py, rfl, rfl⟩ := exists_pixel ⟨x0, x64, y0, y32⟩
    refine ⟨⟨px, py, rfl, rfl, s.fbGet_val px py, by rw [displayPoll, s.fbGet_val]⟩, _, s.fbSet_val px py b, ?_,
      Frame.setFb [] (by simp) noCells s _, fun _ _ => s.fbGet_setPixel_other px py b⟩
    rw [State.fbGet_val, State.setFb_fb, pixel_setPixel, if_pos ⟨rfl, rfl⟩]
  case outside =>
    have coord := fbCoord_out (show ¬(0 ≤ x ∧ x < 64 ∧ 0 ≤ y ∧ y < 32) by omega)
    have get : s.fbGet x y = .error (.outOfRangeFb x y) := by rw [State.fbGet, coord]
    have poll : displayPoll x y s = .error (.raised f (s.endRun f)) := by rw [displayPoll, get, hf]
    refine ⟨get, by rw [State.fbSet, coord], fun running => ?_, fun r faulted => ?_⟩
    · rw [poll, State.endRun, running]
    · rw [poll, State.endRun, faulted]

end Sys2Proof.Machine
end

section
/-! The memory transfers of 44_index_memory.md sections 3 and 4 against their statements: LD B, LD [I], Vx and
LD Vx, [I], in range and running off the memory. -/

namespace Sys2Proof.Machine

/-! A block write at I (R56, R204) -/

/-- A block write inside the memory: byte j is the jth of the list, and no other byte changes. -/
theorem memWrites_atI_next (s : State) (bs : List Byte) (inside : ∀ j < bs.length, s.i.toNat + j < Config.memSize) :
    ∃ t, memWrites s.i.toNat bs s = .next t ∧
      (∀ j (h : j < bs.length), t.memRead (s.i.toNat + j) = .ok bs[j]) ∧
      Frame [] [] (cellsFrom s.i.toNat bs.length) s t :=
  ⟨_, memWrites_ok s.i.toNat bs s inside, fun j h => s.memRead_writeList _ j bs h (inside j h),
    Frame.writeList [] [] s _ bs⟩

/-- A block write whose byte k is the first outside the memory: the k before it stand (R204). -/
theorem memWrites_atI_fault (s : State) (bs : List Byte) {k : Nat} (hk : k < bs.length)
    (inside : ∀ j < k, s.i.toNat + j < Config.memSize) (out : Config.memSize ≤ s.i.toNat + k) {f : FaultRecord}
    (hf : f = ⟨.outOfRangeMem (s.i.toNat + k), s.pc⟩) :
    ∃ t, memWrites s.i.toNat bs s = .fault (.raised f t) ∧ t.run = .faulted f ∧
      (∀ j (h : j < k), t.memRead (s.i.toNat + j) = .ok bs[j]) ∧
      Frame [] [] (cellsFrom s.i.toNat k) s (t.setRun s.run) := by
  subst hf
  have taken : (bs.take k).length = k := List.length_take_of_le hk.le
  refine ⟨_, memWrites_fault s.i.toNat bs s k hk inside out, rfl, fun j h => ?bytes, ?frame⟩
  case bytes =>
    have read := s.memRead_writeList s.i.toNat j (bs.take k) (by omega) (inside j h)
    rw [List.getElem_take] at read
    exact read
  case frame =>
    have frame := Frame.writeList [] [] s s.i.toNat (bs.take k)
    rw [taken] at frame
    exact frame

/-! LD B, Vx -/

theorem digit_toNat (v : Byte) (n : Nat) : (digit v n).toNat = v.toNat / 10 ^ (n - 1) % 10 := by
  rw [digit, BitVec.toNat_ofNat]
  omega

/-- Settles O52: the three digits are the decimal expansion of a byte. -/
theorem bcdStoresTheDigits : Obligations.BcdStoresTheDigits := by
  intro x s inside
  obtain ⟨t, next, bytes, frame⟩ := memWrites_atI_next s (bcdDigits (s.getV x)) fun j (hj : j < 3) =>
    show s.i.toNat + j < 4096 by omega
  have bound := (s.getV x).isLt
  have three : (bcdDigits (s.getV x)).length = 3 := rfl
  refine ⟨t, _, _, _, next, bytes 0 (by omega), bytes 1 (by omega), bytes 2 (by omega), ?_, ?_, ?_, frame⟩
  all_goals
    simp only [bcdDigits, List.getElem_cons_zero, List.getElem_cons_succ, digit_toNat]
    omega

/-! LD [I], Vx -/

/-- Settles O53: byte r of the block is register r. -/
theorem blockStore : Obligations.BlockStore := by
  intro x s inside
  have length : ((regsUpTo x).map s.getV).length = x.val + 1 := by rw [List.length_map, regsUpTo_length]
  obtain ⟨t, next, bytes, frame⟩ := memWrites_atI_next s ((regsUpTo x).map s.getV) fun j hj =>
    show s.i.toNat + j < 4096 by omega
  rw [length] at frame
  refine ⟨t, next, fun r hr => ?_, frame⟩
  have stored : r.val < ((regsUpTo x).map s.getV).length := by omega
  rw [bytes r.val stored, storeRegs_byte x s r stored]

/-- A word whose two bytes are known (R54). -/
theorem State.fetch_of_memRead {s : State} {a : Nat} {high low : Byte} (readHigh : s.memRead a = .ok high)
    (readLow : s.memRead (a + 1) = .ok low) : s.fetch a = .ok (wordOfBytes high low) := by
  simp only [fetch, readHigh, readLow]

/-- Settles O9: the block's first two bytes are V0 and V1, and a fetch reads the same memory. -/
theorem storedBytesAreFetched : Obligations.StoredBytesAreFetched := by
  intro x s two inside
  obtain ⟨t, next, bytes, -⟩ := blockStore x s inside
  exact ⟨t, next, State.fetch_of_memRead (bytes 0 (Nat.zero_le _)) (bytes 1 two)⟩

/-! LD Vx, [I] -/

theorem not_mem_lowRegs {x r : Reg} : r ∉ lowRegs x ↔ x < r := by
  simp [lowRegs]

/-- Settles O54: register r is byte r of the block. -/
theorem blockLoad : Obligations.BlockLoad := by
  intro x s inside
  rcases execLoadRegs_cases x s with ⟨inMemory, t, next, regs, others, loaded⟩ | ⟨k, hk, -, out, -⟩
  · refine ⟨t, next, fun r hr => ?_, Frame.ofRegs regs (fun r hr => others r (not_mem_lowRegs.1 hr)) _ _⟩
    rw [loaded r hr, State.memRead_lt s (inMemory r.val hr)]
  · have out : 4096 ≤ s.i.toNat + k := out
    omega

/-- The load whose byte k is the first outside the memory (R204). -/
theorem exec_loadRegs_fault {x : Reg} {s : State} {k : Nat} (hk : k ≤ x.val)
    (inside : ∀ j < k, s.i.toNat + j < Config.memSize) (out : Config.memSize ≤ s.i.toNat + k) :
    ∃ t, exec (.loadRegs x) s = raise (.outOfRangeMem (s.i.toNat + k)) t ∧ t = { s with v := t.v } ∧
      (∀ r : Reg, k ≤ r.val → t.getV r = s.getV r) ∧
      ∀ r : Reg, r.val < k → t.getV r = s.mem.read (s.i.toNat + r.val) := by
  rcases execLoadRegs_cases x s with ⟨inMemory, -⟩ | ⟨j, hj, inside', out', raised⟩
  · exact absurd (inMemory k hk) (Nat.not_lt.2 out)
  · have notLater : ¬ k < j := fun h => absurd (inside' k h) (Nat.not_lt.2 out)
    have notEarlier : ¬ j < k := fun h => absurd (inside j h) (Nat.not_lt.2 out')
    obtain rfl : j = k := by omega
    exact raised

/-- Settles O55: the two stores are block writes at I, and the load keeps everything but registers. -/
theorem transferFaultsKeepEarlierBytes : Obligations.TransferFaultsKeepEarlierBytes := by
  intro x s k inside out f hf
  refine ⟨fun hk => ?digits, fun hk => ?store, fun hk => ?load⟩
  case digits =>
    obtain ⟨t, raised, run, bytes, frame⟩ := memWrites_atI_fault s (bcdDigits (s.getV x)) hk inside out hf
    refine ⟨t, raised, run, fun j hj => (bytes j hj).trans (congrArg _ ?_), frame⟩
    have hj3 : j < 3 := hj.trans hk
    interval_cases j <;> rfl
  case store =>
    have length : ((regsUpTo x).map s.getV).length = x.val + 1 := by rw [List.length_map, regsUpTo_length]
    obtain ⟨t, raised, run, bytes, frame⟩ :=
      memWrites_atI_fault s ((regsUpTo x).map s.getV) (k := k) (by omega) inside out hf
    refine ⟨t, raised, run, fun r hr => (bytes r.val hr).trans (congrArg _ ?_), frame⟩
    exact storeRegs_byte x s r _
  case load =>
    obtain ⟨t, raised, regs, others, loaded⟩ := exec_loadRegs_fault hk inside out
    have pc : t.pc = s.pc := by rw [regs]
    refine ⟨t.setRun (.faulted f), by rw [raised, hf, ← pc]; rfl, rfl, fun r hr => ?_, others, ?_⟩
    · rw [State.memRead_lt s (inside r.val hr)]
      exact congrArg _ (loaded r hr).symm
    · refine Frame.ofRegs (t := (t.setRun (.faulted f)).setRun s.run) (by rw [regs]; rfl) (fun r hr => others r ?_) _ _
      exact hk.trans (not_mem_lowRegs.1 hr).le

end Sys2Proof.Machine
end

section
/-! The launch parameters in force after a boot, and the reset state as a launch (10_state.md section 9,
70_reset_and_hazards.md section 1). -/

namespace Sys2Proof.Machine

/-- Outside the font a constructed machine's memory is `INIT_MEM` (R41). -/
theorem construct_memRead_initMem (p : Config.Launch) {a : Nat} (low : 80 ≤ a) (high : a < Config.memSize) :
    (construct p).memRead a = .ok ((Memory.ofPairs p.initMem []).read a) := by
  have outside : ¬(0 ≤ a ∧ a < 0 + p.font.toList.length) := by
    rw [Vector.length_toList]
    omega
  have read : (construct p).mem.read a = (Memory.ofPairs p.initMem []).read a := by
    rw [construct, Memory.read_writeList, dif_neg outside]
  rw [State.memRead_lt _ high, read]

theorem Memory.unlisted_of_le {a : Nat} (h : 80 ≤ a) : Memory.unlisted a = 0 := by
  rw [unlisted, if_neg (Nat.not_lt.2 h)]

/-- Settles O57: the load changes nothing but the image's bytes, and the font ends below 80. -/
theorem launchParametersTakeEffect : Obligations.LaunchParametersTakeEffect := by
  intro p image hlen
  refine ⟨_, boot_ok p image hlen, fun _ => rfl, rfl, rfl, rfl, rfl, rfl, rfl, fun a low high outside => ?memory⟩
  have notImage : ¬ cellsFrom Config.loadOffset image.length a := by
    simp only [cellsFrom, Config.loadOffset]
    omega
  rw [(Frame.writeList [] [] (construct p) Config.loadOffset image).memory a notImage,
    construct_memRead_initMem p low high]
  constructor
  · intro before b after named last
    rw [named, Memory.read_ofPairs_last before after [] b low high last]
  · intro unnamed
    rw [Memory.read_ofPairs_unnamed _ _ unnamed]
    exact congrArg _ (Memory.unlisted_of_le low)

/-- Bytes that an empty memory already reads as list no cell. -/
theorem Memory.writeList_unlisted (a : Nat) (bs : List Byte)
    (h : ∀ k (hk : k < bs.length), bs[k] = unlisted (a + k)) : Memory.writeList [] a bs = [] := by
  induction bs generalizing a with
  | nil => rfl
  | cons b bs ih =>
    have first : b = unlisted a := h 0 (Nat.succ_pos _)
    have same : Memory.write [] a b = [] := by rw [write, if_pos first]; rfl
    rw [writeList, same]
    refine ih (a + 1) fun k hk => ?_
    rw [Nat.add_assoc, Nat.add_comm 1]
    exact h (k + 1) (Nat.succ_lt_succ hk)

/-- The default font is what addresses 0 to 79 read as anyway (log entry 8). -/
theorem writeList_defaultFont : Memory.writeList [] 0 Config.defaultFont.toList = [] := by
  refine Memory.writeList_unlisted 0 _ fun k hk => ?_
  have font : k < 80 := by rwa [Vector.length_toList] at hk
  rw [Nat.zero_add, Memory.unlisted, if_pos font, fontByte, List.getD_eq_getElem _ _ hk]

/-- A constructed machine is the reset state but for the launch's own components (R36 to R43). -/
theorem construct_eq (p : Config.Launch) :
    construct p = { State.reset with
      v := p.initV, i := p.initI, dt := p.initDT, st := p.initST, fb := p.initFB, switches := p.switches
      mem := (Memory.ofPairs p.initMem []).writeList 0 p.font.toList } := rfl

/-- Settles O59: the launch's components are those of reset, and its font lists no cell. -/
theorem resetIsTheCleanEntryLaunch : Obligations.ResetIsTheCleanEntryLaunch := by
  refine ⟨?same, ⟨fun r => ?registers, rfl, rfl, rfl, rfl, fun a low high => ?memory⟩, rfl⟩
  case same =>
    have mem : (Memory.ofPairs Config.cleanEntry.initMem []).writeList 0 Config.cleanEntry.font.toList = [] :=
      writeList_defaultFont
    rw [construct_eq, mem]
    rfl
  case registers =>
    simp [State.getV, State.reset]
  case memory =>
    rw [State.memRead_lt _ high]
    exact congrArg _ (Memory.unlisted_of_le low)

end Sys2Proof.Machine
end
